-- ==== Sys2Proof/Word.lean ====
section
/-! DEFINITION. The bit-vector types of the SSP block: what spec/ treats as bits. -/

namespace Sys2Proof

/-- One byte of the source stream or of the frame buffer (20_memory.md R62, R66). -/
abbrev Byte := BitVec 8

/-- A command word `C[15:0]` (30_encoding.md R90). -/
abbrev CmdWord := BitVec 16

/-- A signed 16-bit amplitude in two's complement (00_scope.md R10(a)). -/
abbrev Amp := BitVec 16

/-- A bit-group, zero-extended to the width of the register `BG` (30_encoding.md R101). -/
abbrev Group := BitVec 4

/-- One 32-bit slot of the frame buffer (20_memory.md R60). -/
abbrev SlotWord := BitVec 32

/-- A modulation symbol, the pair `(I, Q)` (00_scope.md, glossary; 40_symbol_table.md R120). -/
structure Symbol where
  i : Amp
  q : Amp
  deriving DecidableEq, Repr

end Sys2Proof
end

