-- ==== Sys2Proof/Config.lean ====
section
/-! DEFINITION. The configuration parameters of 00_scope.md R5 with their constraints R7, and the free values. -/

namespace Sys2Proof

/-- The four 16-QAM level constants of 40_symbol_table.md R122 (`−3a, −a, +a, +3a`).
That a table entry is a pair of these names is the constraint K1 of R125. -/
inductive Level where
  | negThree
  | negOne
  | posOne
  | posThree
  deriving DecidableEq, Repr, Inhabited

/-- The five configuration parameters of 00_scope.md R5, as written down before they are checked. -/
structure Params where
  /-- `CAP`, the buffer capacity in symbols. -/
  cap : Nat
  /-- `CHUNK`, the bound on one source read in bytes. -/
  chunk : Nat
  /-- `QPSK_A`. -/
  qpskA : Nat
  /-- `QAM_A`. -/
  qamA : Nat
  /-- `T16`: sixteen pairs (level of I, level of Q), indexed by the bit-group. -/
  t16 : Vector (Level × Level) 16
  deriving DecidableEq, Repr

/-- The constraints on the parameters: R7 (a), (b), (c), and the pinned entry K2 of R125 (R123).
K1 holds by the type of `t16`; K3 and K4 of R125 are NOT assumed (they are `Params.K3`, `Params.K4`).
DESIGN CHOICE, log entries 1 and 12. -/
abbrev Params.wf (p : Params) : Prop :=
  p.cap % 4 = 0 ∧ 84 ≤ p.cap ∧ p.cap ≤ 2 ^ 30 ∧ 1 ≤ p.chunk ∧
  1 ≤ p.qpskA ∧ p.qpskA ≤ 32767 ∧ 1 ≤ p.qamA ∧ p.qamA ≤ 10922 ∧
  p.t16[11] = (Level.posOne, Level.negThree)

/-- The configuration of a block: parameters that meet R7. A set of parameters that breaks a
constraint is no `Config` ("A configuration that breaks one is refused", R7): see `Config.check`. -/
structure Config extends Params where
  ok : toParams.wf
  deriving DecidableEq, Repr

/-- Fixing the parameters at configuration time (70_reset_and_hazards.md R253 (1)): `none` is the
refusal of R7. -/
def Config.check (p : Params) : Option Config :=
  if h : p.wf then some { toParams := p, ok := h } else none

/-- The constraint K3 of R125 (R124, in the reading taken): each axis is driven by one of the two
2-bit halves of the bit-group, form LO-I or form HI-I. An assumption about the real table: a claim
that uses it says so. -/
def Params.K3 (p : Params) : Prop :=
  ∃ fI fQ : Fin 4 → Level,
    (∀ hi lo : Fin 4, p.t16[4 * hi.val + lo.val] = (fI lo, fQ hi)) ∨
    (∀ hi lo : Fin 4, p.t16[4 * hi.val + lo.val] = (fI hi, fQ lo))

/-- The constraint K4 of R125: the sixteen pairs are pairwise distinct. An assumption about the real
table: a claim that uses it says so. -/
def Params.K4 (p : Params) : Prop :=
  ∀ g h : Fin 16, p.t16[g] = p.t16[h] → g = h

/-- The default table `T16_GRAY` of 40_symbol_table.md R127, "for running the test vectors … and for
nothing else". -/
def t16Gray : Vector (Level × Level) 16 :=
  #v[(.negThree, .posThree), (.negOne, .posThree), (.posThree, .posThree), (.posOne, .posThree),
     (.negThree, .posOne), (.negOne, .posOne), (.posThree, .posOne), (.posOne, .posOne),
     (.negThree, .negThree), (.negOne, .negThree), (.posThree, .negThree), (.posOne, .negThree),
     (.negThree, .negOne), (.negOne, .negOne), (.posThree, .negOne), (.posOne, .negOne)]

/-- Free value: the numbers behind the OPEN parameters `QPSK_A` and `QAM_A` (R5, U5) of the block
that `State.reset` describes (log entry 1). -/
opaque Config.freeAmplitude : Nat → Nat

/-- Free value: the levels behind the OPEN parameter `T16` (R125, U4) of the block that
`State.reset` describes (log entry 1). -/
opaque Config.freeLevel : Nat → Level

/-- Free value: what a sink read returns where 70_reset_and_hazards.md R254 leaves the bytes
unspecified (U7: "any value … a draw per read"), applied to the draw counter of State. -/
opaque Config.freeSinkWord : Nat → BitVec 32

/-- Free value: how far a BUILD has moved the source's cursor when a reset abandons it (R252: "which
prefix is not specified"; U8), applied to the draw counter of State. -/
opaque Config.freeAdvance : Nat → Nat

/-- Free value: how many source reads a BUILD has made when a reset abandons it (R252), applied to the
draw counter of State. -/
opaque Config.freeReads : Nat → Nat

/-- An entry of the installed 16-QAM table, both levels free. -/
def Config.freeEntry (g : Nat) : Level × Level :=
  (Config.freeLevel (2 * g), Config.freeLevel (2 * g + 1))

/-- The configuration of the block that `State.reset` describes: the reference `CAP` and `CHUNK` of
R5, amplitudes free within R7 (c), a table free but for the pinned entry R123 (log entry 1). -/
def Config.installed : Config where
  cap := 65536
  chunk := 64000
  qpskA := 1 + Config.freeAmplitude 0 % 32767
  qamA := 1 + Config.freeAmplitude 1 % 10922
  t16 := #v[Config.freeEntry 0, Config.freeEntry 1, Config.freeEntry 2, Config.freeEntry 3,
            Config.freeEntry 4, Config.freeEntry 5, Config.freeEntry 6, Config.freeEntry 7,
            Config.freeEntry 8, Config.freeEntry 9, Config.freeEntry 10, (.posOne, .negThree),
            Config.freeEntry 12, Config.freeEntry 13, Config.freeEntry 14, Config.freeEntry 15]
  ok := by
    dsimp only [Params.wf]
    refine ⟨by decide, by decide, by decide, by decide, by omega, by omega, by omega, by omega, rfl⟩

end Sys2Proof
end

