-- ==== Sys2Proof/Syntax.lean ====
section
/-! DEFINITION. The commands of 30_encoding.md R93, one constructor per row of spec/opcode_table.json, and the source lines of its assembler (R104, R105). -/

namespace Sys2Proof

/-- The modulation scheme (00_scope.md glossary; 30_encoding.md R100). Its code is `Scheme.bit` of
Decode.lean. -/
inductive Scheme where
  | qpsk
  | qam16
  deriving DecidableEq, Repr, Inhabited

/-- The seven commands (30_encoding.md R93). The operands have exactly the values their fields hold
(R91, R92): a scheme bit and an unsigned byte. -/
inductive Instr where
  /-- NOP, format N (43_session_control.md R203). -/
  | nop
  /-- LOOKUP `s, bg`, format SB (40_symbol_table.md R129). -/
  | lookup (sel : Scheme) (bg : Byte)
  /-- XLOAD `s, b`, format SB (41_bit_extractor.md R145). -/
  | xload (sel : Scheme) (b : Byte)
  /-- XNEXT, format N (41_bit_extractor.md R146). -/
  | xnext
  /-- OPEN `s`, format S (43_session_control.md R201). -/
  | openTx (sel : Scheme)
  /-- BUILD, format N (42_frame_packer.md R171). -/
  | build
  /-- CLOSE, format N (43_session_control.md R202). -/
  | closeTx
  deriving DecidableEq, Repr

/-- A line of a program as it is written (30_encoding.md R104): a mnemonic with its operands as
numbers, or a pseudo-command of R105. What it expands to is `assemble` (Machine/Assembler.lean). -/
inductive AsmLine where
  | nop
  | lookup (s bg : Nat)
  | xload (s b : Nat)
  | xnext
  | openTx (s : Nat)
  | build
  | closeTx
  /-- `LOOKUPQ bg` -/
  | lookupq (bg : Nat)
  /-- `LOOKUP16 bg` -/
  | lookup16 (bg : Nat)
  /-- `XBYTE s, b` -/
  | xbyte (s b : Nat)
  /-- `SWEEP s` -/
  | sweep (s : Nat)
  /-- `FRAMES k` -/
  | frames (k : Nat)
  deriving DecidableEq, Repr

end Sys2Proof
end

