-- ==== Sys2Proof/WellFormed.lean ====
section
/-! DEFINITION. Which terms of the syntax stand for something the block or its assembler accepts. -/

namespace Sys2Proof

/-- Every term of `Instr` is well-formed: its operand types hold exactly the values of the fields
`s` and `imm8` (30_encoding.md R91, R92), so a command with an operand out of its field cannot be
written. (`LOOKUP` with `bg >= N(s)` is a well-formed command that faults, R92.) -/
def Instr.wf : Instr → Bool
  | .nop => true
  | .lookup _ _ => true
  | .xload _ _ => true
  | .xnext => true
  | .openTx _ => true
  | .build => true
  | .closeTx => true

/-- `s` "is written `0` or `1`" (30_encoding.md R104). -/
def asmScheme (s : Nat) : Bool := s < 2

/-- `bg` and `b` "must lie in 0 .. 255" (30_encoding.md R104). -/
def asmByte (b : Nat) : Bool := b < 256

/-- A line of a program is well-formed when each operand it writes lies in its range (R104). -/
def AsmLine.wf : AsmLine → Bool
  | .nop => true
  | .lookup s bg => asmScheme s && asmByte bg
  | .xload s b => asmScheme s && asmByte b
  | .xnext => true
  | .openTx s => asmScheme s
  | .build => true
  | .closeTx => true
  | .lookupq bg => asmByte bg
  | .lookup16 bg => asmByte bg
  | .xbyte s b => asmScheme s && asmByte b
  | .sweep s => asmScheme s
  | .frames _ => true

end Sys2Proof
end

