-- ==== Sys2Proof/Decode.lean ====
section
/-! DEFINITION. The command decoder, total on 16-bit words and rejecting by name, and the encoder (30_encoding.md R90 to R95). -/

namespace Sys2Proof

/-- Which clause of 30_encoding.md R94 makes a word illegal. The names are the model's; every one of
them is the same fault ILLCMD (60_exceptions.md R222). DESIGN CHOICE, log entry 10, safe. -/
inductive Illegal where
  /-- `op` in 0x7 .. 0xF -/
  | reservedOp
  /-- `z != 0` -/
  | zNotZero
  /-- `s = 1` in format N -/
  | schemeNotZero
  /-- `imm8 != 0` in formats N and S -/
  | immNotZero
  deriving DecidableEq, Repr

/-- The scheme a scheme bit selects (30_encoding.md R100). -/
def Scheme.ofBit (b : BitVec 1) : Scheme := if b = 0#1 then .qpsk else .qam16

/-- The scheme bit of a scheme (30_encoding.md R100): 0 = QPSK, 1 = 16-QAM. -/
def Scheme.bit : Scheme → BitVec 1
  | .qpsk => 0#1
  | .qam16 => 1#1

/-- The field `op`, bits 15:12 (R91). -/
def opField (c : CmdWord) : BitVec 4 := c.extractLsb' 12 4
/-- The field `z`, bits 11:9 (R91). -/
def zField (c : CmdWord) : BitVec 3 := c.extractLsb' 9 3
/-- The field `s`, bit 8 (R91). -/
def sField (c : CmdWord) : BitVec 1 := c.extractLsb' 8 1
/-- The field `imm8`, bits 7:0 (R91). -/
def immField (c : CmdWord) : Byte := c.extractLsb' 0 8

/-- A format-N command: `s` and `imm8` must be zero (R91). -/
def decodeN (c : CmdWord) (i : Instr) : Except Illegal Instr :=
  if sField c ≠ 0#1 then .error .schemeNotZero
  else if immField c ≠ 0#8 then .error .immNotZero
  else .ok i

/-- A format-S command: `imm8` must be zero (R91). -/
def decodeS (c : CmdWord) (mk : Scheme → Instr) : Except Illegal Instr :=
  if immField c ≠ 0#8 then .error .immNotZero else .ok (mk (Scheme.ofBit (sField c)))

/-- A format-SB command: `s` and `imm8` are both operands (R91, R92). -/
def decodeSB (c : CmdWord) (mk : Scheme → Byte → Instr) : Except Illegal Instr :=
  .ok (mk (Scheme.ofBit (sField c)) (immField c))

/-- The decoder (R93, R94, R95): every 16-bit word is one of the seven commands or illegal. -/
def decode (c : CmdWord) : Except Illegal Instr :=
  if zField c ≠ 0#3 then .error .zNotZero
  else match (opField c).toNat with
    | 0 => decodeN c .nop
    | 1 => decodeSB c .lookup
    | 2 => decodeSB c .xload
    | 3 => decodeN c .xnext
    | 4 => decodeS c .openTx
    | 5 => decodeN c .build
    | 6 => decodeN c .closeTx
    | _ => .error .reservedOp

/-- A command word from its fields, `z = 0` (R91). -/
def word (op : BitVec 4) (s : BitVec 1) (imm : Byte) : CmdWord := op ++ 0#3 ++ s ++ imm

/-- The command word of a command (R93). -/
def encode : Instr → CmdWord
  | .nop => word 0x0#4 0#1 0#8
  | .lookup sel bg => word 0x1#4 sel.bit bg
  | .xload sel b => word 0x2#4 sel.bit b
  | .xnext => word 0x3#4 0#1 0#8
  | .openTx sel => word 0x4#4 sel.bit 0#8
  | .build => word 0x5#4 0#1 0#8
  | .closeTx => word 0x6#4 0#1 0#8

/-- The column `match` of R93's table for the command's row. -/
def rowMatch : Instr → CmdWord
  | .nop => 0x0000#16
  | .lookup _ _ => 0x1000#16
  | .xload _ _ => 0x2000#16
  | .xnext => 0x3000#16
  | .openTx _ => 0x4000#16
  | .build => 0x5000#16
  | .closeTx => 0x6000#16

/-- The column `mask` of R93's table for the command's row. -/
def rowMask : Instr → CmdWord
  | .nop => 0xFFFF#16
  | .lookup _ _ => 0xFE00#16
  | .xload _ _ => 0xFE00#16
  | .xnext => 0xFFFF#16
  | .openTx _ => 0xFEFF#16
  | .build => 0xFFFF#16
  | .closeTx => 0xFFFF#16

/-- The word the host's opcode-table probe describes: the low `nbits` bits of `w`, zero above. A
command is one 16-bit word delivered whole (R90; 20_memory.md R62). -/
def tableWord (nbits w : Nat) : CmdWord := BitVec.ofNat 16 (w % 2 ^ nbits)

/-- What the decoder reads from a word numbered as spec/opcode_table.json numbers it. -/
def decodeTableWord (nbits w : Nat) : Option Instr := (decode (tableWord nbits w)).toOption

end Sys2Proof
end

