-- ==== Sys2Proof/Machine/State.lean ====
section
/-! DEFINITION. The state of the block (10_state.md R20), the environment it must carry (R44), its reasons to stop, and the state after reset (R45). -/

namespace Sys2Proof.Machine

/-- The values of the register `MODE` (10_state.md R20, R21); the code 3 never occurs (U16). -/
inductive Mode where
  | idle
  | active
  | halt
  deriving DecidableEq, Repr

/-- The values of the register `FAULT` (60_exceptions.md R220). -/
inductive FaultCode where
  /-- code 0, no fault recorded -/
  | noFault
  /-- code 1 -/
  | badbg
  /-- code 2 -/
  | illcmd
  /-- code 3 -/
  | seq
  deriving DecidableEq, Repr

/-- The contents of the frame buffer by byte address (20_memory.md R60, R62): the bytes that have been
written since reset, sorted by address. A byte that is not listed has no specified value (R45).
DESIGN CHOICE, log entry 2, safe. -/
abbrev Memory := List Host.Cell

/-- The canonical form: addresses strictly rising. (An unlisted address reads as no value at all,
`Memory.unlisted`, so no entry can equal what an unlisted address reads as.) -/
abbrev Memory.wf (m : Memory) : Prop := m.Pairwise (fun a b => a.1 < b.1)

/-- The source stream port's other side (10_state.md R44(a); 20_memory.md R66 to R68): the byte
sequence and its cursor. `limits` is the environment's own: the n-th coming read returns at most the
n-th limit; no limit left means the source contract of R68 is kept (DESIGN CHOICE, log entry 8, safe). -/
structure Source where
  bytes : List Byte
  cur : Nat
  limits : List Nat
  deriving DecidableEq, Repr

/-- `cur <= length bytes` (10_state.md R44(a)). -/
abbrev Source.wf (src : Source) : Prop := src.cur ≤ src.bytes.length

/-- The source contract (20_memory.md R68): a read is short only at the end of the source. -/
abbrev Source.contract (src : Source) : Prop := src.limits = []

/-- Who owns the frame buffer (20_memory.md R73; 10_state.md R44(b)). -/
inductive Owner where
  | block
  | sink
  deriving DecidableEq, Repr

/-- One event that reaches the block or its ports from outside, in the order they come (20_memory.md
R72: a single total order). DESIGN CHOICE, log entry 4. -/
inductive Input where
  /-- The host presents a command word on the command port (30_encoding.md R90). -/
  | command (c : CmdWord)
  /-- The reset input, between commands (70_reset_and_hazards.md R250). -/
  | reset
  /-- The reset input while the command `c` is being executed (R250, R252). -/
  | resetDuring (c : CmdWord)
  /-- The host binds a source to the source port and positions its cursor (R253 (4); R256). -/
  | bindSource (src : Source)
  /-- The sink reads `n` bytes of the frame buffer at a byte address (20_memory.md R64, R78). -/
  | sinkRead (addr n : Nat)
  deriving DecidableEq, Repr

/-- The whole state. -/
structure State where
  /-- The configuration parameters (00_scope.md R5): no command and no reset changes them. -/
  cfg : Config
  /-- `MODE` -/
  mode : Mode
  /-- `SCHEME` -/
  scheme : Scheme
  /-- `EXH` -/
  exh : Bool
  /-- `DONE` -/
  done : Bool
  /-- `BYTES` -/
  bytes : BitVec 32
  /-- `WPTR` -/
  wptr : BitVec 32
  /-- `XBYTE` -/
  xbyte : Byte
  /-- `XREM` -/
  xrem : BitVec 3
  /-- `XW`, coded as the scheme bit -/
  xw : Scheme
  /-- `BG` -/
  bg : Group
  /-- `XEMPTY` -/
  xempty : Bool
  /-- `SYM_I` -/
  symI : Amp
  /-- `SYM_Q` -/
  symQ : Amp
  /-- `FAULT` -/
  fault : FaultCode
  /-- `FINFO` -/
  finfo : CmdWord
  /-- The frame buffer `FB` (20_memory.md R60) -/
  fb : Memory
  /-- Environment: the source (10_state.md R44(a)) -/
  src : Source
  /-- Environment: which agent owns `FB` (10_state.md R44(b); 20_memory.md R73; log entry 7) -/
  owner : Owner
  /-- Environment: what the outside presents next, oldest first -/
  inputs : List Input
  /-- Environment, the model's own field: the value the last sink read returned (log entry 6) -/
  sinkData : BitVec 32
  /-- The model's own field: how many free values have been drawn (log entry 5) -/
  draws : Nat
  deriving DecidableEq, Repr

/-- Reasons a step stops with a machine fault: there are none. The block's three faults (60_exceptions.md
R220) are states it goes on from (`FAULT`, `FINFO`, `MODE = HALT`), never a stop of the machine, and no
rule of spec/ describes any other. Safe: nothing is lost in a stop (log entry 9). -/
inductive Fault where
  deriving DecidableEq, Repr

/-- Reasons the model gives no meaning. -/
inductive Refusal where
  /-- An instruction that has no meaning yet, by its mnemonic. No arm of `exec` raises it. Safe. -/
  | notModelled (mnemonic : String)
  /-- Raised by `sinkRead`: the sink reads misaligned, out of range, or not 1, 2 or 4 bytes
  (20_memory.md R64; U9: `refuse`). Safe: the model stops where the spec gives no meaning. -/
  | sinkReadOutsideSpec
  /-- Raised by `bindSource`: the host binds a source whose cursor lies past its end, which
  10_state.md R44(a) excludes. Safe: the model stops on an input the spec does not have. -/
  | sourceCursorPastEnd
  deriving DecidableEq, Repr

/-- The machine right after reset: every register 0 (10_state.md R45; 70_reset_and_hazards.md R251),
nothing listed in the frame buffer ("unspecified"), the configuration of log entry 1, and an
environment that has bound no source and presents nothing (log entry 4) and in which the block owns the
frame buffer (20_memory.md R73: "at all other times the block owns it"). -/
def State.reset : State where
  cfg := Config.installed
  mode := .idle
  scheme := .qpsk
  exh := false
  done := false
  bytes := 0#32
  wptr := 0#32
  xbyte := 0#8
  xrem := 0#3
  xw := .qpsk
  bg := 0#4
  xempty := false
  symI := 0#16
  symQ := 0#16
  fault := .noFault
  finfo := 0#16
  fb := []
  src := { bytes := [], cur := 0, limits := [] }
  owner := .block
  inputs := []
  sinkData := 0#32
  draws := 0

end Sys2Proof.Machine
end

