-- ==== Sys2Proof/Machine/Operands.lean ====
section
/-! DEFINITION. The derived quantities of 00_scope.md R6, and the extraction function of 41_bit_extractor.md R140 to R142. -/

namespace Sys2Proof.Machine

/-- `w(s)`, the bit-group width (R6). -/
def width : Scheme → Nat
  | .qpsk => 2
  | .qam16 => 4

/-- `N(s) = 2^w(s)`, the table size (R6). -/
def tableSize (s : Scheme) : Nat := 2 ^ width s

/-- `gpb(s) = 8 / w(s)`, groups per byte (R6). -/
def groupsPerByte (s : Scheme) : Nat := 8 / width s

/-- `mask(s) = 2^w(s) − 1` (R6), as the byte the extractor ands with. -/
def groupMask (s : Scheme) : Byte := BitVec.ofNat 8 (2 ^ width s - 1)

/-- `PRE(s) = 18 · gpb(s)`, preamble groups (R6). -/
def preGroups (s : Scheme) : Nat := 18 * groupsPerByte s

/-- `SYN(s) = 2 · gpb(s)`, sync groups (R6). -/
def syncGroups (s : Scheme) : Nat := 2 * groupsPerByte s

/-- `HDR(s) = PRE(s) + SYN(s)` (R6). -/
def headerGroups (s : Scheme) : Nat := preGroups s + syncGroups s

/-- `PAYCAP(s) = CAP − HDR(s)`, payload slots per frame (R6). It is also the document's
`remaining_capacity` (42_frame_packer.md R164). -/
def payCap (c : Config) (s : Scheme) : Nat := c.cap - headerGroups s

/-- `PAYBYTES(s) = PAYCAP(s) / gpb(s)`, payload bytes per frame (R6). -/
def payBytes (c : Config) (s : Scheme) : Nat := payCap c s / groupsPerByte s

/-- The extractor's shifter (41_bit_extractor.md R141, R148; 00_scope.md R10(b)): a logical right shift
of a byte by whole groups, the and with `mask(s)`, zero-extended to 4 bits. -/
def shiftMask (s : Scheme) (b : Byte) (groupsRight : Nat) : Group :=
  ((b >>> (groupsRight * width s)) &&& groupMask s).setWidth 4

/-- `group(s, b, g)` of R141: the bit-group of intra-byte index `g`, most significant first. -/
def group (s : Scheme) (b : Byte) (g : Nat) : Group :=
  shiftMask s b (groupsPerByte s - 1 - g)

/-- All groups of one byte, in order (20_memory.md R77). -/
def byteGroups (s : Scheme) (b : Byte) : List Group :=
  (List.range (groupsPerByte s)).map (group s b)

/-- `groups(s, bytes)` of R140: the groups of each byte, bytes in list order. -/
def groups (s : Scheme) (bytes : List Byte) : List Group :=
  bytes.flatMap (byteGroups s)

end Sys2Proof.Machine
end

