-- ==== Sys2Proof/Machine/Ops.lean ====
section
/-! DEFINITION. The named operations: frame-buffer bytes and slots, the source port, fault entry, reset, the status outputs, buffer ownership and the sink's reads. -/

namespace Sys2Proof.Machine

/-! ### Bytes of the frame buffer -/

/-- What an unlisted address reads as: no value (10_state.md R45: "unspecified"). -/
def Memory.unlisted : Option Byte := none

/-- Reading one byte. -/
def Memory.read : Memory → Nat → Option Byte
  | [], _ => Memory.unlisted
  | c :: m, a => if a = c.1 then some c.2 else Memory.read m a

/-- Writing one byte, keeping the canonical form. -/
def Memory.write : Memory → Nat → Byte → Memory
  | [], a, b => [(a, b)]
  | c :: m, a, b =>
    if a < c.1 then (a, b) :: c :: m
    else if a = c.1 then (a, b) :: m
    else c :: Memory.write m a b

/-- `MemWrite(addr, n, v)` (20_memory.md R78): the low `n` bytes of `v`, little-endian (R62). -/
def memWrite (m : Memory) (addr : Nat) : Nat → BitVec 32 → Memory
  | 0, _ => m
  | n + 1, v => memWrite (m.write addr (v.setWidth 8)) (addr + 1) n (v >>> 8)

/-- `MemRead(addr, n)` (R78): the `n` bytes at `addr` as a little-endian unsigned value; `none` if one
of them has no value. -/
def memRead (m : Memory) (addr : Nat) : Nat → Option (BitVec 32)
  | 0 => some 0#32
  | n + 1 =>
    match m.read addr, memRead m (addr + 1) n with
    | some b, some v => some (v <<< 8 ||| b.setWidth 32)
    | _, _ => none

/-- The symbol word `{Q[15:0], I[15:0]}` (R61). -/
def symbolWord (x : Symbol) : SlotWord := x.q ++ x.i

/-- The byte address of slot `n` (R62). -/
def slotAddr (n : Nat) : Nat := 4 * n

/-- `FB[n] <- (I, Q)` (R78, R63): one whole aligned 32-bit store. -/
def fbWrite (m : Memory) (n : Nat) (x : Symbol) : Memory :=
  memWrite m (slotAddr n) 4 (symbolWord x)

/-! ### The source port -/

/-- Bytes of the source from the cursor on. -/
def Source.rest (src : Source) : List Byte := src.bytes.drop src.cur

/-- How many bytes the source returns for a read of `n`: `min(n, length bytes − cur)` under the source
contract (20_memory.md R66), and no more than the environment's limit where it breaks it (R68, U12). -/
def Source.readCount (src : Source) (n : Nat) : Nat :=
  match src.limits with
  | [] => min n (src.bytes.length - src.cur)
  | l :: _ => min l (min n (src.bytes.length - src.cur))

/-- The source after a read of `n`: the cursor has moved by exactly the bytes returned (R66). -/
def Source.afterRead (src : Source) (n : Nat) : Source :=
  { src with cur := src.cur + src.readCount n, limits := src.limits.tail }

/-- `SrcRead(n)` (R66): the next bytes of the source in order, and the source after it. -/
def srcRead (src : Source) (n : Nat) : List Byte × Source :=
  (src.rest.take (src.readCount n), src.afterRead n)

/-- `SrcEnd()` (R67): the source has no byte left. It moves nothing. -/
def srcEnd (src : Source) : Bool := src.cur == src.bytes.length

/-! ### Fault entry and reset -/

/-- `raise Fault(code, C)` (60_exceptions.md R224): exactly these three writes. -/
def raiseFault (code : FaultCode) (c : CmdWord) (s : State) : State :=
  { s with fault := code, finfo := c, mode := .halt }

/-- What OPEN and CLOSE both clear (43_session_control.md R201, R202). -/
def clearTransmission (s : State) : State :=
  { s with exh := false, done := false, bytes := 0#32, wptr := 0#32,
           xbyte := 0#8, xrem := 0#3, xw := .qpsk, bg := 0#4, xempty := false }

/-- The reset input (70_reset_and_hazards.md R251), the only way out of HALT (60_exceptions.md R227):
all fifteen registers 0, the frame buffer unspecified (nothing listed); the parameters are not touched, nor
the environment's state, the source and the owner of the buffer (10_state.md R44). -/
def resetBlock (s : State) : State :=
  { clearTransmission s with
      mode := .idle, scheme := .qpsk, symI := 0#16, symQ := 0#16,
      fault := .noFault, finfo := 0#16, fb := [] }

/-! ### Status outputs -/

/-- The code of `MODE` (10_state.md R20). -/
def Mode.code : Mode → BitVec 2
  | .idle => 0#2
  | .active => 1#2
  | .halt => 2#2

/-- The code of `FAULT` (60_exceptions.md R220). -/
def FaultCode.code : FaultCode → BitVec 2
  | .noFault => 0#2
  | .badbg => 1#2
  | .illcmd => 2#2
  | .seq => 3#2

/-- The status outputs (10_state.md R20): every register "of the same name and width". -/
structure StatusOutputs where
  mode : BitVec 2
  scheme : BitVec 1
  exh : BitVec 1
  done : BitVec 1
  bytes : BitVec 32
  wptr : BitVec 32
  xbyte : BitVec 8
  xrem : BitVec 3
  xw : BitVec 1
  bg : BitVec 4
  xempty : BitVec 1
  symI : BitVec 16
  symQ : BitVec 16
  fault : BitVec 2
  finfo : BitVec 16
  deriving DecidableEq, Repr

/-- What the host sees; no command is needed and looking changes nothing (10_state.md R20). -/
def status (s : State) : StatusOutputs where
  mode := s.mode.code
  scheme := s.scheme.bit
  exh := BitVec.ofBool s.exh
  done := BitVec.ofBool s.done
  bytes := s.bytes
  wptr := s.wptr
  xbyte := s.xbyte
  xrem := s.xrem
  xw := s.xw.bit
  bg := s.bg
  xempty := BitVec.ofBool s.xempty
  symI := s.symI
  symQ := s.symQ
  fault := s.fault.code
  finfo := s.finfo

/-! ### The hand-off to the sink -/

/-- Who owns the buffer once the host has issued a command (20_memory.md R73): a BUILD or a CLOSE takes it
from the sink; no other command moves it. That it does so whatever becomes of the command is DEDUCED, log
entry 7, safe. -/
def ownerWhenIssued (i : Instr) (o : Owner) : Owner :=
  match i with
  | .nop => o
  | .lookup _ _ => o
  | .xload _ _ => o
  | .xnext => o
  | .openTx _ => o
  | .build => .block
  | .closeTx => .block

/-- The host's reset, like its BUILD and CLOSE, ends the sink's turn (20_memory.md R73); it is the issuing
that does so, not the block's reset (10_state.md R44). DEDUCED, log entry 7, safe. -/
def takeBack (s : State) : State := { s with owner := .block }

/-- The state once the host has issued a command that has no effect on the block (R73). -/
def handBack (i : Instr) (s : State) : State := { s with owner := ownerWhenIssued i s.owner }

/-- The reads the sink may make (R64, R78): 1, 2 or 4 bytes, aligned, inside the `4·CAP` bytes. -/
def sinkReadLegal (c : Config) (addr n : Nat) : Bool :=
  (n == 1 || n == 2 || n == 4) && addr % n == 0 && addr + n ≤ 4 * c.cap

/-- A draw for a read of `n` bytes that the spec leaves unspecified (R254, U7): any value of `n` bytes,
a new one each time. -/
def freeSinkValue (draws n : Nat) : BitVec 32 :=
  Config.freeSinkWord draws &&& BitVec.ofNat 32 (2 ^ (8 * n) - 1)

/-- What the sink's read returns: the bytes while it owns the buffer, otherwise nothing specified. -/
def sinkValue (s : State) (addr n : Nat) : Option (BitVec 32) :=
  match s.owner with
  | .sink => memRead s.fb addr n
  | .block => none

/-- A read of the frame buffer by the sink (R64, R78): refused outside the reads R64 allows; the
buffer's bytes while the sink owns it; any value otherwise (R254). It changes nothing of the block. -/
def sinkRead (addr n : Nat) (s : State) : Host.Outcome State Fault Refusal :=
  if sinkReadLegal s.cfg addr n then
    match sinkValue s addr n with
    | some v => .next { s with sinkData := v }
    | none => .next { s with sinkData := freeSinkValue s.draws n, draws := s.draws + 1 }
  else .refused .sinkReadOutsideSpec

/-- The host binds a source to the source port (70_reset_and_hazards.md R253 (4)); 10_state.md R44(a)
gives no meaning to a cursor past the end. -/
def bindSource (src : Source) (s : State) : Host.Outcome State Fault Refusal :=
  if src.wf then .next { s with src := src } else .refused .sourceCursorPastEnd

end Sys2Proof.Machine
end

