-- ==== Sys2Proof/Machine/Flags.lean ====
section
/-! DEFINITION. Which command is legal when (43_session_control.md R204), the order of the checks (60_exceptions.md R225), and the flag rules of `EXH`, `DONE` and `XEMPTY` (10_state.md R23, R24, R39). -/

namespace Sys2Proof.Machine

/-- The legality table R204 in the modes IDLE and ACTIVE (in HALT every command is ignored). -/
def legal (i : Instr) (m : Mode) (exh : Bool) : Bool :=
  match i with
  | .nop => true
  | .lookup _ _ => true
  | .xload _ _ => m = .idle
  | .xnext => m = .idle
  | .openTx _ => m = .idle
  | .build => m = .active && !exh
  | .closeTx => m = .active

/-- The frame of every command (60_exceptions.md R225, R226): in HALT it is ignored; where R204 says SEQ
it raises SEQ and does nothing else; otherwise it has its effect. That the host has issued a BUILD or a
CLOSE ends the sink's turn in the first two cases as well is how the model reads 20_memory.md R73 (DEDUCED,
log entry 7, safe). -/
def whenLegal (i : Instr) (s : State) (effect : State) : State :=
  if s.mode = .halt then handBack i s
  else if legal i s.mode s.exh then effect
  else raiseFault .seq (encode i) (handBack i s)

/-- BUILD's start: `DONE <- 0 ; BYTES <- 0 ; WPTR <- 0` (42_frame_packer.md R171; 10_state.md R24); the
buffer is the block's own again (20_memory.md R73). -/
def startFrame (s : State) : State :=
  { s with done := false, bytes := 0#32, wptr := 0#32, owner := .block }

/-- BUILD's end: `EXH` and `DONE <- 1` (R171; 10_state.md R23, R24), which hands the buffer to the sink
(20_memory.md R73). -/
def endFrame (exhausted : Bool) (s : State) : State :=
  { s with exh := exhausted, done := true, owner := .sink }

end Sys2Proof.Machine
end

