-- ==== Sys2Proof/Machine/Extractor.lean ====
section
/-! DEFINITION. The bit-group extractor BGX (41_bit_extractor.md): its unit and the commands XLOAD (R145) and XNEXT (R146). -/

namespace Sys2Proof.Machine

/-- Loading a byte into the extractor (R145; R147: a load starts a fresh sequence). -/
def loadByte (w : Scheme) (b : Byte) (s : State) : State :=
  { s with xbyte := b, xw := w, xrem := BitVec.ofNat 3 (groupsPerByte w), xempty := false }

/-- The group the extractor delivers next (R148): shift amount `(XREM − 1) · w(XW)`. -/
def nextGroup (s : State) : Group := shiftMask s.xw s.xbyte (s.xrem.toNat - 1)

/-- Taking one group (R146, the branch `XREM != 0`). -/
def takeGroup (s : State) : State :=
  { s with bg := nextGroup s, xrem := s.xrem - 1#3, xempty := false }

/-- XNEXT's effect when it is legal (R146): exhaustion sets `XEMPTY` and is no fault. -/
def nextEffect (s : State) : State := if s.xrem = 0#3 then { s with xempty := true } else takeGroup s

/-- XLOAD `s, b` (R145). -/
def execXload (sel : Scheme) (b : Byte) (s : State) : Host.Outcome State Fault Refusal :=
  .next (whenLegal (.xload sel b) s (loadByte sel b s))

/-- XNEXT (R146). -/
def execXnext (s : State) : Host.Outcome State Fault Refusal :=
  .next (whenLegal .xnext s (nextEffect s))

end Sys2Proof.Machine
end

