-- ==== Sys2Proof/Machine/SymbolTable.lean ====
section
/-! DEFINITION. The symbol-table multiplexer STM: the tables of 40_symbol_table.md and the command LOOKUP (R129). -/

namespace Sys2Proof.Machine

/-- `POS = +QPSK_A` (R121). -/
def pos (c : Config) : Amp := BitVec.ofInt 16 c.qpskA

/-- `NEG = −QPSK_A` (R121). -/
def neg (c : Config) : Amp := BitVec.ofInt 16 (-c.qpskA)

/-- The amplitude of a 16-QAM level, `a = QAM_A` (R122). -/
def levelAmp (c : Config) : Level → Amp
  | .negThree => BitVec.ofInt 16 (-(3 * c.qamA))
  | .negOne => BitVec.ofInt 16 (-c.qamA)
  | .posOne => BitVec.ofInt 16 c.qamA
  | .posThree => BitVec.ofInt 16 (3 * c.qamA)

/-- The QPSK table (R121): bit 1 of the group is the sign of I, bit 0 the sign of Q. -/
def qpskEntry (c : Config) (g : BitVec 2) : Symbol where
  i := if g.getLsbD 1 then neg c else pos c
  q := if g.getLsbD 0 then neg c else pos c

/-- The 16-QAM table (R125): `T(1, g) = T16[g]`. -/
def qam16Entry (c : Config) (g : Group) : Symbol where
  i := levelAmp c (c.t16[g.toNat]'g.isLt).1
  q := levelAmp c (c.t16[g.toNat]'g.isLt).2

/-- The selector of R132: `s` selects the table; under QPSK "only `g[1:0]` index the table". -/
def romEntry (c : Config) (s : Scheme) (g : Group) : Symbol :=
  match s with
  | .qpsk => qpskEntry c (g.setWidth 2)
  | .qam16 => qam16Entry c g

/-- `T(s, g)` of R120, defined for `0 <= g < N(s)` and no other `g` (R221: no amplitude pair for an
input out of range). -/
def symbolAt (c : Config) (s : Scheme) (g : Nat) : Option Symbol :=
  if g < tableSize s then some (romEntry c s (BitVec.ofNat 4 g)) else none

/-- The pad symbol `T(s, 0)` (42_frame_packer.md R167). -/
def padSymbol (c : Config) (s : Scheme) : Symbol := romEntry c s 0#4

/-- LOOKUP's effect when it is legal (R129): BADBG where `T` gives nothing (R221). -/
def lookupEffect (sel : Scheme) (bg : Byte) (s : State) : State :=
  match symbolAt s.cfg sel bg.toNat with
  | some x => { s with symI := x.i, symQ := x.q }
  | none => raiseFault .badbg (encode (.lookup sel bg)) s

/-- LOOKUP `s, bg` (R129). -/
def execLookup (sel : Scheme) (bg : Byte) (s : State) : Host.Outcome State Fault Refusal :=
  .next (whenLegal (.lookup sel bg) s (lookupEffect sel bg s))

end Sys2Proof.Machine
end

