-- ==== Sys2Proof/Machine/FramePacker.lean ====
section
/-! DEFINITION. The frame buffer packer FBP and the command BUILD (42_frame_packer.md R171), in the order of its pseudocode. -/

namespace Sys2Proof.Machine

/-- The header bytes `H[0..19]` (30_encoding.md R102): preamble, then sync word. -/
def headerBytes : List Byte := List.replicate 18 0x33#8 ++ [0x33#8, 0xF7#8]

/-- `FB[WPTR] <- x ; WPTR <- WPTR + 1` (R171; 20_memory.md R63). -/
def putSymbol (x : Symbol) (s : State) : State :=
  { s with fb := fbWrite s.fb s.wptr.toNat x, wptr := s.wptr + 1#32 }

/-- One pass of `emit_byte`'s loop (R171): a group through the extractor, the table and into a slot. -/
def emitGroup (s : State) : State :=
  putSymbol (romEntry s.cfg s.scheme (nextGroup s)) (takeGroup s)

/-- `emit_byte`'s loop, `n` passes. -/
def emitGroups : Nat → State → State
  | 0, s => s
  | n + 1, s => emitGroups n (emitGroup s)

/-- `emit_byte(b)` (R171). -/
def emitByte (b : Byte) (s : State) : State :=
  emitGroups (groupsPerByte s.scheme) (loadByte s.scheme b s)

/-- `for each b in data, in order: emit_byte(b)` (R171). -/
def emitBytes : List Byte → State → State
  | [], s => s
  | b :: bs, s => emitBytes bs (emitByte b s)

/-- `need`: the bytes that would exactly fill the slots still empty (R165). -/
def need (s : State) : Nat := (s.cfg.cap - s.wptr.toNat) / groupsPerByte s.scheme

/-- The size of one burst, `min(CHUNK, need)` (R165). -/
def burstSize (s : State) : Nat := min s.cfg.chunk (need s)

/-- The body of the payload loop (R171): one source read, its bytes emitted and counted. -/
def burst (s : State) : State :=
  let r := srcRead s.src (burstSize s)
  let t := emitBytes r.1 { s with src := r.2 }
  { t with bytes := t.bytes + BitVec.ofNat 32 r.1.length }

/-- The read of this burst comes back short, `m < n` (R166). -/
def burstShort (s : State) : Bool := s.src.readCount (burstSize s) < burstSize s

/-- The payload loop `while WPTR < CAP and short = 0`, at most `fuel` bursts, with the local flag
`short`. A burst that is not short fills at least one slot, so `CAP` bursts are enough (R260). -/
def payload : Nat → State → State × Bool
  | 0, s => (s, false)
  | fuel + 1, s =>
    if s.wptr.toNat < s.cfg.cap then
      if burstShort s then (burst s, true) else payload fuel (burst s)
    else (s, false)

/-- `n` passes of the padding loop (R167, R171). -/
def pad : Nat → State → State
  | 0, s => s
  | n + 1, s => pad n (putSymbol (padSymbol s.cfg s.scheme) s)

/-- `while WPTR < CAP: FB[WPTR] <- T(s, 0)` (R171): the slots still empty. -/
def padRest (s : State) : State := pad (s.cfg.cap - s.wptr.toNat) s

/-- BUILD up to its payload: the frame's start and the header (R162, R171). -/
def emitHeader (s : State) : State := emitBytes headerBytes (startFrame s)

/-- BUILD after its payload: padding and `EXH <- 1` after a short read (R166), the end probe after an
exact fill (R168; always made, log entry 11), then `DONE <- 1`. -/
def finishFrame (r : State × Bool) : State :=
  if r.2 then endFrame true (padRest r.1) else endFrame (srcEnd r.1.src) r.1

/-- The payload bytes of the next frame under the source contract: "the first min(P, length rest) bytes of
rest" (R173). -/
def framePayload (s : State) : List Byte := s.src.rest.take (payBytes s.cfg s.scheme)

/-- The symbols of a frame that carries the payload bytes `p`: header, payload and pad symbols (R160,
R173). -/
def frameSymbols (c : Config) (s : Scheme) (p : List Byte) : List Symbol :=
  (groups s (headerBytes ++ p)).map (romEntry c s) ++
    List.replicate (payCap c s - groupsPerByte s * p.length) (padSymbol c s)

/-- BUILD's effect when it is legal (R171). -/
def buildFrame (s : State) : State := finishFrame (payload s.cfg.cap (emitHeader s))

/-- BUILD (R171). -/
def execBuild (s : State) : Host.Outcome State Fault Refusal :=
  .next (whenLegal .build s (buildFrame s))

/-- The source when a reset abandons a BUILD (70_reset_and_hazards.md R252): some of its reads have been
made, and the cursor is "at any position between its value before BUILD and that plus `PAYBYTES(s)`"
(93_implementation_defined.md U8), inside the source; `advance` chooses the position and `reads` how
many reads the environment has answered. -/
def abandonedSource (advance reads : Nat) (s : State) : Source :=
  { s.src with
      cur := s.src.cur + advance % (min (payBytes s.cfg s.scheme) s.src.rest.length + 1)
      limits := s.src.limits.drop reads }

end Sys2Proof.Machine
end

