-- ==== Sys2Proof/Machine/Session.lean ====
section
/-! DEFINITION. Transmission control (43_session_control.md): the commands NOP (R203), OPEN (R201) and CLOSE (R202). -/

namespace Sys2Proof.Machine

/-- NOP (R203): it changes nothing. -/
def execNop (s : State) : Host.Outcome State Fault Refusal :=
  .next (whenLegal .nop s s)

/-- OPEN's effect when it is legal (R201). -/
def openEffect (sel : Scheme) (s : State) : State :=
  { clearTransmission s with scheme := sel, mode := .active }

/-- CLOSE's effect when it is legal (R202): `SCHEME` keeps its value; the buffer is the block's own again
(20_memory.md R73). -/
def closeEffect (s : State) : State := { clearTransmission s with mode := .idle, owner := .block }

/-- OPEN `s` (R201). -/
def execOpen (sel : Scheme) (s : State) : Host.Outcome State Fault Refusal :=
  .next (whenLegal (.openTx sel) s (openEffect sel s))

/-- CLOSE (R202). -/
def execClose (s : State) : Host.Outcome State Fault Refusal :=
  .next (whenLegal .closeTx s (closeEffect s))

end Sys2Proof.Machine
end

