-- ==== Sys2Proof/Machine/Dispatch.lean ====
section
/-! DEFINITION. One arm per command: each calls its meaning. -/

namespace Sys2Proof.Machine

def exec (i : Instr) (s : State) : Host.Outcome State Fault Refusal :=
  match i with
  | .nop => Sys2Proof.Machine.execNop s
  | .lookup sel bg => Sys2Proof.Machine.execLookup sel bg s
  | .xload sel b => Sys2Proof.Machine.execXload sel b s
  | .xnext => Sys2Proof.Machine.execXnext s
  | .openTx sel => Sys2Proof.Machine.execOpen sel s
  | .build => Sys2Proof.Machine.execBuild s
  | .closeTx => Sys2Proof.Machine.execClose s

end Sys2Proof.Machine
end

