-- ==== Sys2Proof/Machine/Issue.lean ====
section
/-! DEFINITION. What one input from outside does: a command word on the command port, the reset input, the binding of a source, a read by the sink. -/

namespace Sys2Proof.Machine

/-- A word that matches no pattern: ILLCMD (60_exceptions.md R222), but in HALT every word, "legal or
not", is ignored (R226, R225 (1)). -/
def illegalCommand (c : CmdWord) (s : State) : State :=
  if s.mode = .halt then s else raiseFault .illcmd c s

/-- The block takes one command word (30_encoding.md R90; the order of checks is 60_exceptions.md
R225): decoding does not depend on the state, so that HALT is asked first in either branch (DEDUCED, log
entry 13, safe). -/
def issueCommand (c : CmdWord) (s : State) : Host.Outcome State Fault Refusal :=
  match decode c with
  | .ok i => exec i s
  | .error _ => .next (illegalCommand c s)

/-- The source when reset comes while the word `c` is executed (70_reset_and_hazards.md R252): a legal
BUILD has moved the cursor by a free amount; no other command touches the source (20_memory.md R69).
DESIGN CHOICE, log entry 3, safe. -/
def sourceAtReset (c : CmdWord) (s : State) : Source :=
  match decode c with
  | .ok .build =>
    if legal .build s.mode s.exh then abandonedSource (Config.freeAdvance s.draws) (Config.freeReads s.draws) s else s.src
  | _ => s.src

/-- Reset while the word `c` is executed (R250, R252): the registers and the frame buffer as after any
reset, the source where the reads already made have left it; the host has taken the frame buffer back
(20_memory.md R73). -/
def resetDuring (c : CmdWord) (s : State) : State :=
  resetBlock (takeBack { s with src := sourceAtReset c s, draws := s.draws + 1 })

/-- One input from outside. The reset input: the host takes the frame buffer back (20_memory.md R73), and the
block is reset (70_reset_and_hazards.md R251). -/
def runInput (x : Input) (s : State) : Host.Outcome State Fault Refusal :=
  match x with
  | .command c => issueCommand c s
  | .reset => .next (resetBlock (takeBack s))
  | .resetDuring c => .next (resetDuring c s)
  | .bindSource src => bindSource src s
  | .sinkRead addr n => sinkRead addr n s

end Sys2Proof.Machine
end

