-- ==== Sys2Proof/Machine/Step.lean ====
section
/-! DEFINITION. One step: the block takes the oldest input from outside. -/

namespace Sys2Proof.Machine

/-- One step (20_memory.md R72: one at a time, each to completion, in the order issued). With nothing
presented the block waits (10_state.md R45: "the block waits in IDLE for a command"). -/
def step (s : State) : Host.Outcome State Fault Refusal :=
  match s.inputs with
  | [] => .next s
  | x :: rest => runInput x { s with inputs := rest }

/-- `s` with the command word of the host's probe presented on the command port, ahead of whatever
else is (30_encoding.md R90): the very next step takes it (log entry 4). -/
def State.withFetchWord (s : State) (nbits w : Nat) : State :=
  { s with inputs := .command (tableWord nbits w) :: s.inputs }

end Sys2Proof.Machine
end

