-- ==== Sys2Proof/Machine/Assembler.lean ====
section
/-! DEFINITION. What a line of a program stands for (30_encoding.md R104, R105) and how a program comes to the command port. -/

namespace Sys2Proof.Machine

/-- A written `s` (R104): `0` is QPSK, `1` is 16-QAM. -/
def asmSchemeOf (s : Nat) : Scheme := Scheme.ofBit (BitVec.ofNat 1 s)

/-- A written operand byte (R104). -/
def asmByteOf (b : Nat) : Byte := BitVec.ofNat 8 b

/-- The commands a line stands for: the command itself, or the expansion of a pseudo-command (R105). -/
def assemble : AsmLine → List Instr
  | .nop => [.nop]
  | .lookup s bg => [.lookup (asmSchemeOf s) (asmByteOf bg)]
  | .xload s b => [.xload (asmSchemeOf s) (asmByteOf b)]
  | .xnext => [.xnext]
  | .openTx s => [.openTx (asmSchemeOf s)]
  | .build => [.build]
  | .closeTx => [.closeTx]
  | .lookupq bg => [.lookup .qpsk (asmByteOf bg)]
  | .lookup16 bg => [.lookup .qam16 (asmByteOf bg)]
  | .xbyte s b =>
    .xload (asmSchemeOf s) (asmByteOf b) ::
      List.replicate (groupsPerByte (asmSchemeOf s)) .xnext
  | .sweep s =>
    (List.range (tableSize (asmSchemeOf s))).map fun g => .lookup (asmSchemeOf s) (asmByteOf g)
  | .frames k => List.replicate k .build

/-- The inputs by which the host issues a program, "one per line, executed top to bottom" (R104). -/
def programInputs (p : List AsmLine) : List Input :=
  (p.flatMap assemble).map fun i => .command (encode i)

/-- Commands executed one after another, each to completion (20_memory.md R72), stopping where one does
not answer a next state. -/
def execAll : List Instr → State → Host.Outcome State Fault Refusal
  | [], s => .next s
  | i :: is, s =>
    match exec i s with
    | .next t => execAll is t
    | .fault r => .fault r
    | .refused r => .refused r

end Sys2Proof.Machine
end

