-- ==== Sys2Proof/Safety.lean ====
section
/-! DEFINITION. What claims are stated in: the invariant of the state, safe runs, and what it is for the frame buffer to hold a frame. -/

namespace Sys2Proof.Machine

/-- The invariant of every state a block can be in, from the rules of 10_state.md. -/
structure Inv (s : State) : Prop where
  /-- "`FAULT != 0` if and only if `MODE = HALT`" (R29). -/
  haltIffFault : s.mode = .halt ↔ s.fault ≠ .noFault
  /-- `FINFO` is "0 since reset" while no fault is recorded (60_exceptions.md R220). -/
  infoZero : s.fault = .noFault → s.finfo = 0#16
  /-- "The invariant `XREM <= gpb(XW)` holds in every reachable state" (R27). -/
  xremLe : s.xrem.toNat ≤ groupsPerByte s.xw
  /-- Nothing of a transmission is left in IDLE (R45; 43_session_control.md R202). -/
  idleClear : s.mode = .idle → s.exh = false ∧ s.done = false
  /-- The extractor is empty while a transmission is open (42_frame_packer.md R172, R178). -/
  activeExtractor : s.mode = .active → s.xrem = 0#3 ∧ s.xempty = false
  /-- `EXH` is set only together with `DONE` (42_frame_packer.md R171). -/
  exhDone : s.exh = true → s.done = true
  /-- The counters are 0 until a BUILD has ended (R25, R26, R45). -/
  notDone : s.done = false → s.bytes = 0#32 ∧ s.wptr = 0#32
  /-- "`DONE` says that all CAP slots of `FB` were written" (R24), "`WPTR = CAP`" (R26). -/
  doneFull : s.done = true → s.wptr.toNat = s.cfg.cap ∧ ∀ a, a < 4 * s.cfg.cap → (s.fb.read a).isSome
  /-- "`0 <= BYTES <= PAYBYTES(SCHEME)`" (R25). -/
  bytesLe : s.bytes.toNat ≤ payBytes s.cfg s.scheme
  /-- The sink owns the buffer only while it holds a complete frame (20_memory.md R73). -/
  sinkDone : s.owner = .sink → s.done = true
  /-- The frame buffer is in its canonical form. -/
  fbCanonical : s.fb.wf
  /-- The frame buffer is `4·CAP` bytes (20_memory.md R60). -/
  fbInside : ∀ c ∈ s.fb, c.1 < 4 * s.cfg.cap
  /-- "`cur <= length bytes`" (R44). -/
  srcWf : s.src.wf

/-- A good state of a run: "a model's claim about a run takes `FAULT = 0` as a premise and a run that
reaches HALT is never a good final state" (60_exceptions.md R227). -/
def Good (s : State) : Prop := s.fault = .noFault

/-- A legal BUILD can start: a transmission is open and its source is not exhausted
(43_session_control.md R204), and the source's cursor lies in the source (10_state.md R44). -/
def ReadyToBuild (s : State) : Prop := s.mode = .active ∧ s.exh = false ∧ s.src.wf

/-- The frame buffer holds the symbols `xs` in its slots from 0 on (42_frame_packer.md R160). -/
def HoldsFrame (m : Memory) (xs : List Symbol) : Prop :=
  ∀ (k : Nat) (h : k < xs.length), memRead m (slotAddr k) 4 = some (symbolWord xs[k])

/-- What BUILD does not write (42_frame_packer.md R171): "`SYM_I`, `SYM_Q`, `SCHEME`, `MODE`, `FAULT`,
`FINFO` are not written", nor anything outside the block but the source. -/
structure BuildKeeps (s t : State) : Prop where
  cfg : t.cfg = s.cfg
  mode : t.mode = s.mode
  scheme : t.scheme = s.scheme
  symI : t.symI = s.symI
  symQ : t.symQ = s.symQ
  fault : t.fault = s.fault
  finfo : t.finfo = s.finfo
  inputs : t.inputs = s.inputs
  sinkData : t.sinkData = s.sinkData
  draws : t.draws = s.draws

/-- `ceil(n / d)`. -/
def ceilDiv (n d : Nat) : Nat := (n + d - 1) / d

end Sys2Proof.Machine
end

