-- ==== Sys2Proof/Certificates/Slice0/Obligations.lean ====
section
/-! DEFINITION. The statements for the provers. Each docstring names the rules of spec/ it comes from. -/

open Sys2Proof Sys2Proof.Machine

/-! ### Configuration (00_scope.md) -/

/-- Fixing the parameters at configuration time refuses a parameter set that breaks a constraint of R7
(a), (b), (c), and accepts any other as it stands, but for one more refusal that R7 does not have: a
`T16` without the pinned entry is refused as well, which is the model's own choice (log entries 1 and 12:
K2 is part of every `Config`). -/
def Obligations.ConfigurationCheckedAgainstConstraints : Prop :=
  ∀ p : Params,
    (Config.check p = none ↔
      ¬ (p.cap % 4 = 0 ∧ 84 ≤ p.cap ∧ p.cap ≤ 2 ^ 30 ∧ 1 ≤ p.chunk ∧
         1 ≤ p.qpskA ∧ p.qpskA ≤ 32767 ∧ 1 ≤ p.qamA ∧ p.qamA ≤ 10922 ∧
         p.t16[11] = (Level.posOne, Level.negThree))) ∧
    (∀ c, Config.check p = some c → c.toParams = p)

/-- R6, R7(a): the derived quantities of every configuration. The header is 80 or 40 slots, the payload
slots are the rest, a whole number of bytes and at least one, and `4·CAP` fits in 32 bits. -/
def Obligations.DerivedQuantitiesOfEveryConfiguration : Prop :=
  ∀ (c : Config) (s : Scheme),
    (preGroups s, syncGroups s, headerGroups s) =
      (match s with | .qpsk => (72, 8, 80) | .qam16 => (36, 4, 40)) ∧
    payCap c s + headerGroups s = c.cap ∧
    4 ≤ payCap c s ∧
    groupsPerByte s ∣ payCap c s ∧
    groupsPerByte s * payBytes c s = payCap c s ∧
    1 ≤ payBytes c s ∧
    4 * c.cap ≤ 2 ^ 32

/-! ### Commands and their words (30_encoding.md) -/

/-- R93, R95: encoding a command and decoding the word gives the command back, every operand at every
value of its field; and every word that decodes is the encoding of what it decodes to. -/
def Obligations.EncodeAndDecodeAgree : Prop :=
  (∀ i : Instr, decode (encode i) = .ok i) ∧
  (∀ (c : CmdWord) (i : Instr), decode c = .ok i → encode i = c)

/-- R93: "a word `C` encodes the command if and only if `C & mask = match`", and the seven patterns are
pairwise disjoint. -/
def Obligations.DecodeFollowsThePatternTable : Prop :=
  (∀ (c : CmdWord) (i : Instr), decode c = .ok i → c &&& rowMask i = rowMatch i) ∧
  (∀ (c : CmdWord) (j : Instr), c &&& rowMask j = rowMatch j →
    ∃ i, decode c = .ok i ∧ rowMatch i = rowMatch j) ∧
  (∀ (c : CmdWord) (i j : Instr), c &&& rowMask i = rowMatch i → c &&& rowMask j = rowMatch j →
    rowMatch i = rowMatch j)

/-- R93: the patterns "cover … 1030 of the 65536 words". -/
def Obligations.ExactlyOneThousandThirtyWordsAreLegal : Prop :=
  ∃ ws : List CmdWord, ws.Nodup ∧ ws.length = 1030 ∧ ∀ c, c ∈ ws ↔ ∃ i, decode c = .ok i

/-- R222: every word that R94 lists as illegal (a reserved `op`, `z != 0`, a format-N word with `s = 1`
or `imm8 != 0`, an OPEN word with `imm8 != 0`) raises ILLCMD in IDLE and in ACTIVE; any word R94 does
not list decodes to a command. -/
def Obligations.IllegalWordsRaiseIllcmd : Prop :=
  ∀ (c : CmdWord) (s : State), s.mode ≠ .halt →
    let op := (c.extractLsb' 12 4).toNat
    let z := (c.extractLsb' 9 3).toNat
    let sBit := (c.extractLsb' 8 1).toNat
    let imm := (c.extractLsb' 0 8).toNat
    let listed := 7 ≤ op ∨ z ≠ 0 ∨ ((op = 0 ∨ op = 3 ∨ op = 5 ∨ op = 6) ∧ (sBit ≠ 0 ∨ imm ≠ 0)) ∨
      (op = 4 ∧ imm ≠ 0)
    (listed → issueCommand c s = .next { s with fault := .illcmd, finfo := c, mode := .halt }) ∧
    (¬ listed → ∃ i, decode c = .ok i)

/-- R93 with the vectors of 95_test_vectors.md 2.1: words written out from the patterns decode to their
commands, and some of R94's illegal words do not decode (the names of the reasons are the model's own, log
entry 10). -/
def Obligations.SampleWordsDecode : Prop :=
  decode 0b0000000000000000#16 = .ok .nop ∧
  decode 0b0001000000000001#16 = .ok (.lookup .qpsk 1#8) ∧
  decode 0b0001000100001011#16 = .ok (.lookup .qam16 11#8) ∧
  decode 0b0010000000011011#16 = .ok (.xload .qpsk 0x1B#8) ∧
  decode 0b0011000000000000#16 = .ok .xnext ∧
  decode 0b0100000000000000#16 = .ok (.openTx .qpsk) ∧
  decode 0b0100000100000000#16 = .ok (.openTx .qam16) ∧
  decode 0b0101000000000000#16 = .ok .build ∧
  decode 0b0110000000000000#16 = .ok .closeTx ∧
  decode 0x7000#16 = .error .reservedOp ∧
  decode 0x0200#16 = .error .zNotZero ∧
  decode 0x5100#16 = .error .schemeNotZero ∧
  decode 0x4180#16 = .error .immNotZero

/-- R105: `SWEEP s` looks up the whole table in order: from any state not in HALT it raises nothing,
ends with the last entry in `SYM_I`, `SYM_Q`, and changes nothing else; its prefix of `k + 1` commands
ends with the entry of `k`. -/
def Obligations.SweepLooksUpEveryEntryInOrder : Prop :=
  ∀ (n k : Nat) (s : State), n < 2 → s.mode ≠ .halt → k < tableSize (asmSchemeOf n) →
    (assemble (.sweep n)).length = tableSize (asmSchemeOf n) ∧
    ∃ x, symbolAt s.cfg (asmSchemeOf n) k = some x ∧
      execAll ((assemble (.sweep n)).take (k + 1)) s = .next { s with symI := x.i, symQ := x.q }

/-- R104 with 20_memory.md R72: the commands of a program presented on the command port are executed
one at a time, in the order issued: the steps that take them answer what executing the assembled
commands one after another answers, and leave the inputs that follow. -/
def Obligations.ProgramOnThePortRunsInOrder : Prop :=
  ∀ (p : List AsmLine) (later : List Input) (s : State), s.inputs = programInputs p ++ later →
    ∃ t, execAll (p.flatMap assemble) { s with inputs := later } = .next t ∧
      Host.Core.run Sys2Proof.core (p.flatMap assemble).length s = .next t

/-! ### The symbol-table multiplexer (40_symbol_table.md) -/

/-- R121: the QPSK table, `I = NEG if g[1] = 1 else POS` and `Q = NEG if g[0] = 1 else POS`, as signed
integers, with its four entries written out. -/
def Obligations.QpskTableIsSignPerBit : Prop :=
  ∀ c : Config,
    (pos c).toInt = c.qpskA ∧ (neg c).toInt = -c.qpskA ∧
    symbolAt c .qpsk 0b00 = some ⟨pos c, pos c⟩ ∧
    symbolAt c .qpsk 0b01 = some ⟨pos c, neg c⟩ ∧
    symbolAt c .qpsk 0b10 = some ⟨neg c, pos c⟩ ∧
    symbolAt c .qpsk 0b11 = some ⟨neg c, neg c⟩ ∧
    ∀ g : BitVec 2, symbolAt c .qpsk g.toNat =
      some ⟨if g.getLsbD 1 then neg c else pos c, if g.getLsbD 0 then neg c else pos c⟩

/-- R122: every I and every Q of the sixteen entries is one of the four levels `−3a, −a, +a, +3a`. -/
def Obligations.SixteenQamAmplitudesAreTheFourLevels : Prop :=
  ∀ (c : Config) (g : Nat), g < 16 →
    ∃ x, symbolAt c .qam16 g = some x ∧
      x.i.toInt ∈ [-3 * (c.qamA : Int), -(c.qamA : Int), (c.qamA : Int), 3 * (c.qamA : Int)] ∧
      x.q.toInt ∈ [-3 * (c.qamA : Int), -(c.qamA : Int), (c.qamA : Int), 3 * (c.qamA : Int)]

/-- R123: `T(1, 0b1011) = (+a, −3a)`, whatever the rest of the table is. -/
def Obligations.SixteenQamPinnedEntry : Prop :=
  ∀ c : Config, ∃ x, symbolAt c .qam16 0b1011 = some x ∧
    x.i.toInt = c.qamA ∧ x.q.toInt = -3 * (c.qamA : Int)

/-- R125, R124: what K3 and K4 say where they are assumed (they are assumptions about the real table and
no `Config` is required to meet them): under K4 the two level functions of either form are bijections,
and the pinned entry fixes one value of each. -/
def Obligations.AxisFunctionsUnderTheTableAssumptions : Prop :=
  ∀ (c : Config) (fI fQ : Fin 4 → Level),
    ((∀ hi lo : Fin 4, c.t16[4 * hi.val + lo.val] = (fI lo, fQ hi)) →
      fI 0b11 = .posOne ∧ fQ 0b10 = .negThree ∧
      (c.K4 → Function.Bijective fI ∧ Function.Bijective fQ)) ∧
    ((∀ hi lo : Fin 4, c.t16[4 * hi.val + lo.val] = (fI hi, fQ lo)) →
      fI 0b10 = .posOne ∧ fQ 0b11 = .negThree ∧
      (c.K4 → Function.Bijective fI ∧ Function.Bijective fQ))

/-- R127: the default table, which only the test vectors use, "satisfies K1 to K4" (K1 by its type). -/
def Obligations.GrayTableMeetsTheTableConstraints : Prop :=
  ∀ p : Params, p.t16 = t16Gray →
    p.t16[11] = (Level.posOne, Level.negThree) ∧ p.K3 ∧ p.K4

/-- R130: no entry of either table is the pair `(0, 0)`; in particular the pad symbol is not, and it is
`(POS, POS)` under QPSK and `T16[0]` under 16-QAM, `(−3a, +3a)` where the table is `T16_GRAY`. -/
def Obligations.NoTableEntryIsTheZeroPair : Prop :=
  ∀ c : Config,
    (∀ (s : Scheme) (g : Nat) (x : Symbol), symbolAt c s g = some x → x ≠ ⟨0#16, 0#16⟩) ∧
    (∀ s : Scheme, padSymbol c s ≠ ⟨0#16, 0#16⟩ ∧ symbolAt c s 0 = some (padSymbol c s)) ∧
    padSymbol c .qpsk = ⟨pos c, pos c⟩ ∧
    padSymbol c .qam16 = ⟨levelAmp c c.t16[0].1, levelAmp c c.t16[0].2⟩ ∧
    (c.t16 = t16Gray → (padSymbol c .qam16).i.toInt = -3 * (c.qamA : Int) ∧
      (padSymbol c .qam16).q.toInt = 3 * (c.qamA : Int))

/-- R129: LOOKUP completes in IDLE and in ACTIVE for every group in range, of either scheme: the entry
goes to `SYM_I` and `SYM_Q` and nothing else of the state changes. -/
def Obligations.LookupLoadsTheSymbolRegisters : Prop :=
  ∀ (sel : Scheme) (bg : Byte) (s : State), s.mode ≠ .halt → bg.toNat < tableSize sel →
    ∃ x, symbolAt s.cfg sel bg.toNat = some x ∧
      exec (.lookup sel bg) s = .next { s with symI := x.i, symQ := x.q }

/-- R221: BADBG is raised by LOOKUP with `bg >= 4` when `s = 0` and `bg >= 16` when `s = 1`, before any
register is written; no other command raises it; and no amplitude pair exists for such an input. -/
def Obligations.BadbgExactlyForLookupOutOfRange : Prop :=
  (∀ (bg : Byte) (s : State), s.mode ≠ .halt → 4 ≤ bg.toNat →
    exec (.lookup .qpsk bg) s =
      .next { s with fault := .badbg, finfo := encode (.lookup .qpsk bg), mode := .halt }) ∧
  (∀ (bg : Byte) (s : State), s.mode ≠ .halt → 16 ≤ bg.toNat →
    exec (.lookup .qam16 bg) s =
      .next { s with fault := .badbg, finfo := encode (.lookup .qam16 bg), mode := .halt }) ∧
  (∀ (c : CmdWord) (s t : State), issueCommand c s = .next t → t.fault = .badbg → s.fault ≠ .badbg →
    ∃ sel bg, decode c = .ok (.lookup sel bg) ∧ tableSize sel ≤ bg.toNat) ∧
  (∀ (c : Config) (g : Nat), (4 ≤ g → symbolAt c .qpsk g = none) ∧ (16 ≤ g → symbolAt c .qam16 g = none))

/-- R128: repeated lookups of the same input yield the same pair, whatever states they are made in, of
one configuration; and a lookup repeated at once changes nothing more. -/
def Obligations.LookupIsPure : Prop :=
  ∀ (sel : Scheme) (bg : Byte) (s u : State), s.mode ≠ .halt → u.mode ≠ .halt → s.cfg = u.cfg →
    bg.toNat < tableSize sel →
    ∃ t v, exec (.lookup sel bg) s = .next t ∧ exec (.lookup sel bg) u = .next v ∧
      t.symI = v.symI ∧ t.symQ = v.symQ ∧ exec (.lookup sel bg) t = .next t

/-! ### The bit-group extractor (41_bit_extractor.md) -/

/-- R141: the element of `groups(s, bytes)` at position `k · gpb(s) + g` is
`(b_k >> ((gpb(s) − 1 − g) · w(s))) & mask(s)`, and the groups of one byte spelled out. -/
def Obligations.GroupsFollowTheShiftFormula : Prop :=
  (∀ (s : Scheme) (bytes : List Byte) (k g : Nat) (hk : k < bytes.length), g < groupsPerByte s →
    (groups s bytes)[k * groupsPerByte s + g]? =
      some (((bytes[k] >>> ((groupsPerByte s - 1 - g) * width s)) &&&
        BitVec.ofNat 8 (2 ^ width s - 1)).setWidth 4)) ∧
  (∀ b : Byte,
    groups .qpsk [b] = [(b.extractLsb' 6 2).setWidth 4, (b.extractLsb' 4 2).setWidth 4,
      (b.extractLsb' 2 2).setWidth 4, (b.extractLsb' 0 2).setWidth 4] ∧
    groups .qam16 [b] = [b.extractLsb' 4 4, b.extractLsb' 0 4])

/-- R142: `groups(s, bytes)` has exactly `L · gpb(s)` elements. -/
def Obligations.GroupCountIsBytesTimesGroupsPerByte : Prop :=
  ∀ (s : Scheme) (bytes : List Byte), (groups s bytes).length = bytes.length * groupsPerByte s

/-- R143: re-assembling the groups of a byte gives the byte back; hence `groups(s, ·)` is injective on
byte lists, and it takes concatenation to concatenation. -/
def Obligations.GroupsReassembleToTheirBytes : Prop :=
  (∀ b : Byte,
    (group .qpsk b 0).setWidth 2 ++ (group .qpsk b 1).setWidth 2 ++
      (group .qpsk b 2).setWidth 2 ++ (group .qpsk b 3).setWidth 2 = b ∧
    group .qam16 b 0 ++ group .qam16 b 1 = b) ∧
  (∀ (s : Scheme) (x y : List Byte), groups s x = groups s y → x = y) ∧
  (∀ (s : Scheme) (x y : List Byte), groups s (x ++ y) = groups s x ++ groups s y)

/-- R131: every group is below `N(s)`, so that every argument `T` has inside BUILD is in range. -/
def Obligations.ExtractedGroupsAreInRange : Prop :=
  ∀ (c : Config) (s : Scheme) (bytes : List Byte) (g : Group), g ∈ groups s bytes →
    g.toNat < tableSize s ∧ symbolAt c s g.toNat = some (romEntry c s g)

/-- R145: XLOAD completes in IDLE: the byte, the width, `gpb(s)` groups to come, not empty; a fresh
sequence whatever the extractor held; nothing else changes. -/
def Obligations.XloadStartsAFreshSequence : Prop :=
  ∀ (sel : Scheme) (b : Byte) (s : State), s.mode = .idle →
    exec (.xload sel b) s = .next { s with
      xbyte := b, xw := sel, xempty := false,
      xrem := (match sel with | .qpsk => 4#3 | .qam16 => 2#3) }

/-- R146: XNEXT completes in IDLE. With `XREM = 0` it sets `XEMPTY` and changes nothing else; otherwise
it delivers the next group, counts it off and clears `XEMPTY`. -/
def Obligations.XnextDeliversOrReportsEmpty : Prop :=
  ∀ s : State, s.mode = .idle →
    (s.xrem = 0#3 → exec .xnext s = .next { s with xempty := true }) ∧
    (s.xrem ≠ 0#3 → exec .xnext s = .next { s with
      bg := ((s.xbyte >>> ((s.xrem.toNat - 1) * width s.xw)) &&&
        BitVec.ofNat 8 (2 ^ width s.xw - 1)).setWidth 4,
      xrem := s.xrem - 1#3, xempty := false })

/-- R146, R147 (corner cases): the XNEXT that follow an XLOAD deliver `group(s, b, 0)`, `group(s, b, 1)`,
… in order; every further one reports exhaustion, keeps the last group and raises nothing. -/
def Obligations.XnextAfterXloadDeliversTheByteInOrder : Prop :=
  ∀ (sel : Scheme) (b : Byte) (s : State), s.mode = .idle →
    (∀ j, j < groupsPerByte sel →
      execAll (.xload sel b :: List.replicate (j + 1) .xnext) s = .next { s with
        xbyte := b, xw := sel, xempty := false, bg := group sel b j,
        xrem := BitVec.ofNat 3 (groupsPerByte sel - (j + 1)) }) ∧
    (∀ m, groupsPerByte sel < m →
      execAll (.xload sel b :: List.replicate m .xnext) s = .next { s with
        xbyte := b, xw := sel, xempty := true, bg := group sel b (groupsPerByte sel - 1), xrem := 0#3 })

/-! ### The source port and the frame buffer (20_memory.md) -/

/-- R66, R72: a source read returns the next bytes in order and moves the cursor by exactly their number;
two reads in a row return what one read of both sizes returns. -/
def Obligations.SourceReadsConcatenate : Prop :=
  ∀ (src : Source) (n k : Nat), src.contract →
    (srcRead src n).1 = (src.bytes.drop src.cur).take (min n (src.bytes.length - src.cur)) ∧
    (srcRead src n).2.cur = src.cur + min n (src.bytes.length - src.cur) ∧
    (srcRead src n).2.bytes = src.bytes ∧
    (srcRead src (n + k)).1 = (srcRead src n).1 ++ (srcRead (srcRead src n).2 k).1 ∧
    (srcRead src (n + k)).2.cur = (srcRead (srcRead src n).2 k).2.cur

/-- R62, R61, R63: a slot store puts I low, I high, Q low, Q high at the byte addresses `4n` to `4n + 3`,
reads back as the word `{Q, I}`, and leaves every other byte as it was. -/
def Obligations.SlotStoreIsLittleEndian : Prop :=
  ∀ (m : Memory) (n : Nat) (x : Symbol),
    (fbWrite m n x).read (4 * n) = some (x.i.extractLsb' 0 8) ∧
    (fbWrite m n x).read (4 * n + 1) = some (x.i.extractLsb' 8 8) ∧
    (fbWrite m n x).read (4 * n + 2) = some (x.q.extractLsb' 0 8) ∧
    (fbWrite m n x).read (4 * n + 3) = some (x.q.extractLsb' 8 8) ∧
    memRead (fbWrite m n x) (4 * n) 4 = some (x.q ++ x.i) ∧
    (∀ a, a < 4 * n ∨ 4 * n + 4 ≤ a → (fbWrite m n x).read a = m.read a)

/-- R64, R78, R254 (the invariant is what makes an owned buffer readable): a sink read outside the
reads R64 allows is refused; while the sink owns the buffer it returns the bytes at the address, and
nothing but the value read changes; at any other time it completes with some value of that many bytes. -/
def Obligations.SinkReadsOnlyWhatItOwns : Prop :=
  ∀ (s : State) (addr n : Nat), Inv s →
    let allowed := (n = 1 ∨ n = 2 ∨ n = 4) ∧ addr % n = 0 ∧ addr + n ≤ 4 * s.cfg.cap
    (¬ allowed → runInput (.sinkRead addr n) s = .refused .sinkReadOutsideSpec) ∧
    (allowed → s.owner = .sink → ∃ v, memRead s.fb addr n = some v ∧
      runInput (.sinkRead addr n) s = .next { s with sinkData := v }) ∧
    (allowed → s.owner = .block → ∃ v : BitVec 32, v.toNat < 2 ^ (8 * n) ∧
      runInput (.sinkRead addr n) s = .next { s with sinkData := v, draws := s.draws + 1 })

/-! ### The frame buffer packer (42_frame_packer.md) -/

/-- R173: BUILD as one function. Under the source contract, with `p` the first `min(P, length rest)` of
the bytes from the cursor on, BUILD completes: the slots hold the symbols of header and payload and
then the pad symbol, exactly `CAP` of them; `BYTES` and the cursor count `p`; `EXH` says whether the
source ends in this frame; `DONE = 1`, `WPTR = CAP`. -/
def Obligations.BuildIsTheBigStepFunction : Prop :=
  ∀ s : State, ReadyToBuild s → s.src.contract →
    let rest := s.src.bytes.drop s.src.cur
    let p := rest.take (min (payBytes s.cfg s.scheme) rest.length)
    let frame := (groups s.scheme (headerBytes ++ p)).map (romEntry s.cfg s.scheme) ++
      List.replicate (payCap s.cfg s.scheme - groupsPerByte s.scheme * p.length) (padSymbol s.cfg s.scheme)
    ∃ t, exec .build s = .next t ∧
      frame.length = s.cfg.cap ∧ HoldsFrame t.fb frame ∧
      t.bytes.toNat = p.length ∧
      t.src = { s.src with cur := s.src.cur + p.length } ∧
      (t.exh = true ↔ rest.length ≤ payBytes s.cfg s.scheme) ∧
      t.done = true ∧ t.wptr.toNat = s.cfg.cap

/-- R161, R165, R166, R169, R260 (and 10_state.md R24 to R26): whatever the source returns, contract or
not, BUILD completes. It consumes some bytes `p`, the next ones of the source and at most `PAYBYTES(s)`;
the frame is exactly that of `p`; `BYTES` and the cursor count them; a frame that is not full is the
last one. (A source out of contract is log entry 8.) -/
def Obligations.BuildCompletesWhateverTheSourceReturns : Prop :=
  ∀ s : State, ReadyToBuild s →
    ∃ t p, exec .build s = .next t ∧
      p = (s.src.bytes.drop s.src.cur).take p.length ∧
      p.length ≤ payBytes s.cfg s.scheme ∧
      (frameSymbols s.cfg s.scheme p).length = s.cfg.cap ∧
      HoldsFrame t.fb (frameSymbols s.cfg s.scheme p) ∧
      t.bytes.toNat = p.length ∧ t.src.bytes = s.src.bytes ∧ t.src.cur = s.src.cur + p.length ∧
      (p.length < payBytes s.cfg s.scheme → t.exh = true) ∧
      (t.src.cur < t.src.bytes.length → p.length = payBytes s.cfg s.scheme → t.exh = false) ∧
      (t.src.cur = t.src.bytes.length → t.exh = true) ∧
      t.done = true ∧ t.wptr.toNat = s.cfg.cap ∧ t.src.wf

/-- R171 (its frame), R63: BUILD writes no register but those it names and no byte outside its `CAP`
slots, whose addresses it computes as `FB[WPTR]` for `WPTR = 0 .. CAP − 1`. -/
def Obligations.BuildLeavesTheRestUnchanged : Prop :=
  ∀ s : State, ReadyToBuild s →
    ∃ t, exec .build s = .next t ∧ BuildKeeps s t ∧
      ∀ a, (∀ n, n < s.cfg.cap → a < slotAddr n ∨ slotAddr n + 4 ≤ a) → t.fb.read a = s.fb.read a

/-- R172: the extractor registers after BUILD: `XW = SCHEME`, `XREM = 0`, `XEMPTY = 0`, `XBYTE` the last
source byte received or else `0xF7`, `BG` its last group (3 or 7 with no byte received). No legal
command uses them: XLOAD and XNEXT fault and CLOSE clears them. -/
def Obligations.ExtractorRegistersAfterBuild : Prop :=
  ∀ s t : State, ReadyToBuild s → exec .build s = .next t →
    t.xw = s.scheme ∧ t.xrem = 0#3 ∧ t.xempty = false ∧
    (1 ≤ t.bytes.toNat → t.src.bytes[t.src.cur - 1]? = some t.xbyte) ∧
    (t.bytes.toNat = 0 → t.xbyte = 0xF7#8 ∧ t.bg = (match s.scheme with | .qpsk => 3#4 | .qam16 => 7#4)) ∧
    t.bg = (t.xbyte &&& BitVec.ofNat 8 (2 ^ width s.scheme - 1)).setWidth 4 ∧
    (∀ sel b, exec (.xload sel b) t =
      .next { t with fault := .seq, finfo := encode (.xload sel b), mode := .halt }) ∧
    exec .xnext t = .next { t with fault := .seq, finfo := encode .xnext, mode := .halt } ∧
    (∃ u, exec .closeTx t = .next u ∧
      u.xbyte = 0#8 ∧ u.xrem = 0#3 ∧ u.xw = .qpsk ∧ u.bg = 0#4 ∧ u.xempty = false)

/-- R163: the groups of the header bytes, and the header slots of every frame: under QPSK slots 0 to 75
alternate the entries of 0 and 3, then 3, 3, 1, 3; under 16-QAM slots 0 to 37 hold `T16[3]`, then
`T16[15]`, `T16[7]`. -/
def Obligations.HeaderSlotsOfEveryFrame : Prop :=
  (groups .qpsk [0x33#8] = [0#4, 3#4, 0#4, 3#4] ∧ groups .qpsk [0xF7#8] = [3#4, 3#4, 1#4, 3#4] ∧
    groups .qam16 [0x33#8] = [3#4, 3#4] ∧ groups .qam16 [0xF7#8] = [15#4, 7#4]) ∧
  ∀ s : State, ReadyToBuild s →
    ∃ t, exec .build s = .next t ∧
      (s.scheme = .qpsk → ∀ n, n < 80 →
        memRead t.fb (4 * n) 4 = some (symbolWord
          (if n < 76 then (if n % 2 = 0 then ⟨pos s.cfg, pos s.cfg⟩ else ⟨neg s.cfg, neg s.cfg⟩)
           else if n = 78 then ⟨pos s.cfg, neg s.cfg⟩ else ⟨neg s.cfg, neg s.cfg⟩))) ∧
      (s.scheme = .qam16 → ∀ n, n < 40 →
        memRead t.fb (4 * n) 4 = some (symbolWord (qam16Entry s.cfg
          (if n < 38 then 3#4 else if n = 38 then 15#4 else 7#4))))

/-- R175: two blocks that differ in nothing but `CHUNK` build the same frame and come to states that
differ in nothing but `CHUNK`. -/
def Obligations.ChunkCannotBeObserved : Prop :=
  ∀ (s : State) (c : Config), ReadyToBuild s → s.src.contract →
    c.cap = s.cfg.cap → c.qpskA = s.cfg.qpskA → c.qamA = s.cfg.qamA → c.t16 = s.cfg.t16 →
    ∃ t, exec .build s = .next t ∧ exec .build { s with cfg := c } = .next { t with cfg := c }

/-- R176: with `pads` the slots that no byte fills, the last `pads` slots hold the pad symbol;
`pads` is a multiple of `gpb(s)`, 0 exactly when the frame took `PAYBYTES(s)` bytes, and at least
`gpb(s)` after a short read (the only way a frame takes fewer). -/
def Obligations.PadSymbolsAreWholeBytes : Prop :=
  ∀ s : State, ReadyToBuild s →
    ∃ t, exec .build s = .next t ∧
      let pads := payCap s.cfg s.scheme - groupsPerByte s.scheme * t.bytes.toNat
      (∀ n, s.cfg.cap - pads ≤ n → n < s.cfg.cap →
        memRead t.fb (4 * n) 4 = some (symbolWord (padSymbol s.cfg s.scheme))) ∧
      groupsPerByte s.scheme ∣ pads ∧
      (pads = 0 ↔ t.bytes.toNat = payBytes s.cfg s.scheme) ∧
      (t.bytes.toNat ≠ payBytes s.cfg s.scheme → groupsPerByte s.scheme ≤ pads)

/-- R177: a source whose remaining length is exactly `PAYBYTES(s)` gives one frame with no pad
symbol, every payload slot a group of the source, `BYTES = PAYBYTES(s)` and `EXH = 1`. -/
def Obligations.ExactFillNeedsNoExtraFrame : Prop :=
  ∀ s : State, ReadyToBuild s → s.src.contract →
    (s.src.bytes.drop s.src.cur).length = payBytes s.cfg s.scheme →
    ∃ t, exec .build s = .next t ∧
      ((groups s.scheme (headerBytes ++ s.src.bytes.drop s.src.cur)).map
        (romEntry s.cfg s.scheme)).length = s.cfg.cap ∧
      HoldsFrame t.fb ((groups s.scheme (headerBytes ++ s.src.bytes.drop s.src.cur)).map
        (romEntry s.cfg s.scheme)) ∧
      t.bytes.toNat = payBytes s.cfg s.scheme ∧ t.exh = true

/-- R166, 20_memory.md R68 (U12): a first read cut short by the source at `l` bytes, before its end, ends
the payload: those `l` bytes are the frame's, the rest is padded, `EXH = 1`, and the remaining bytes
are not read. That a source breaks its contract through its list of limits is log entry 8. -/
def Obligations.ShortReadEndsThePayload : Prop :=
  ∀ (s : State) (l : Nat) (ls : List Nat), ReadyToBuild s → s.src.limits = l :: ls →
    l < min s.cfg.chunk (payBytes s.cfg s.scheme) → l ≤ (s.src.bytes.drop s.src.cur).length →
    ∃ t, exec .build s = .next t ∧
      HoldsFrame t.fb (frameSymbols s.cfg s.scheme ((s.src.bytes.drop s.src.cur).take l)) ∧
      t.bytes.toNat = l ∧ t.exh = true ∧ t.done = true ∧
      t.src = { s.src with cur := s.src.cur + l, limits := ls }

/-- R174: a host that issues OPEN and then BUILD until `EXH = 1`, on a source of `L >= 1` bytes, issues
exactly `ceil(L / PAYBYTES(s)) = ceil(L · gpb(s) / PAYCAP(s))` BUILDs, and the final frame carries the
bytes left over and pad symbols `T(s, 0)`; for `L = 0` it issues one, a frame of header and pad symbols
with `BYTES = 0` and `EXH = 1`. -/
def Obligations.FrameCountIsTheCeiling : Prop :=
  ∀ (s : State) (sel : Scheme), s.mode = .idle → s.src.wf → s.src.contract →
    let L := (s.src.bytes.drop s.src.cur).length
    let frames := ceilDiv L (payBytes s.cfg sel)
    frames = ceilDiv (L * groupsPerByte sel) (payCap s.cfg sel) ∧
    (1 ≤ L → 1 ≤ frames ∧
      (∀ k, k < frames → ∃ t, execAll (.openTx sel :: List.replicate k .build) s = .next t ∧
        t.exh = false ∧ t.mode = .active ∧ t.fault = s.fault) ∧
      (∃ t, execAll (.openTx sel :: List.replicate frames .build) s = .next t ∧
        t.exh = true ∧ t.mode = .active ∧ t.fault = s.fault ∧
        HoldsFrame t.fb (frameSymbols s.cfg sel
          ((s.src.bytes.drop s.src.cur).drop ((frames - 1) * payBytes s.cfg sel))))) ∧
    (L = 0 → ∃ t, execAll [.openTx sel, .build] s = .next t ∧
      HoldsFrame t.fb ((groups sel headerBytes).map (romEntry s.cfg sel) ++
        List.replicate (payCap s.cfg sel) (padSymbol s.cfg sel)) ∧
      t.bytes.toNat = 0 ∧ t.exh = true)

/-- R178: consecutive frames carry consecutive whole bytes: the payload of frame `j` is the source's
bytes `j · PAYBYTES(s)` to `(j + 1) · PAYBYTES(s) − 1` from where the transmission began, cut short at
the end; the extractor is empty at every frame boundary and between header and payload. -/
def Obligations.FramesCarryConsecutiveBytes : Prop :=
  ∀ (s : State) (sel : Scheme) (j : Nat), s.mode = .idle → s.src.wf → s.src.contract →
    (j = 0 ∨ j * payBytes s.cfg sel < (s.src.bytes.drop s.src.cur).length) →
    ∃ t, execAll (.openTx sel :: List.replicate (j + 1) .build) s = .next t ∧
      HoldsFrame t.fb (frameSymbols s.cfg sel
        (((s.src.bytes.drop s.src.cur).drop (j * payBytes s.cfg sel)).take (payBytes s.cfg sel))) ∧
      t.xrem = 0#3 ∧ ∀ u : State, (emitHeader u).xrem = 0#3

/-! ### Transmission control (43_session_control.md) -/

/-- R201: OPEN completes in IDLE: `SCHEME`, `MODE = ACTIVE`, the flags, the counters and the extractor
cleared; `SYM_I`, `SYM_Q`, `FAULT`, `FINFO`, `FB` and the source unchanged. -/
def Obligations.OpenStartsATransmission : Prop :=
  ∀ (sel : Scheme) (s : State), s.mode = .idle →
    exec (.openTx sel) s = .next { s with
      scheme := sel, mode := .active, exh := false, done := false, bytes := 0#32, wptr := 0#32,
      xbyte := 0#8, xrem := 0#3, xw := .qpsk, bg := 0#4, xempty := false }

/-- R202: CLOSE completes in ACTIVE, whatever `EXH` and `DONE` are: `MODE = IDLE`, the same registers
cleared, `SCHEME` kept; `SYM_I`, `SYM_Q`, `FAULT`, `FINFO`, `FB` and the source unchanged; the buffer is
the block's own again (20_memory.md R73). -/
def Obligations.CloseEndsTheTransmission : Prop :=
  ∀ s : State, s.mode = .active →
    exec .closeTx s = .next { s with
      mode := .idle, exh := false, done := false, bytes := 0#32, wptr := 0#32,
      xbyte := 0#8, xrem := 0#3, xw := .qpsk, bg := 0#4, xempty := false, owner := .block }

/-- R203: NOP completes in every mode and changes nothing. -/
def Obligations.NopChangesNothing : Prop :=
  ∀ s : State, exec .nop s = .next s

/-- R202 (worked example), for every transmission that has raised no fault: OPEN, any number of legal
BUILDs and CLOSE return every register but `SCHEME`, `SYM_I`, `SYM_Q` to its reset value. -/
def Obligations.TransmissionLeavesNoRegisterBehind : Prop :=
  ∀ (s t : State) (sel : Scheme) (k : Nat), Inv s → s.mode = .idle →
    execAll (.openTx sel :: List.replicate k .build ++ [.closeTx]) s = .next t → t.mode ≠ .halt →
    status t = { status State.reset with scheme := sel.bit, symI := s.symI, symQ := s.symQ }

/-- R204: the legality table. In HALT every command is ignored. A command that is not legal in the
present mode raises SEQ and does nothing else. A legal one raises no SEQ. (`handedBack` is no effect of the
command. That a BUILD or CLOSE which HALT ignores, or which raises SEQ, still ends the sink's turn is the
model's reading of 20_memory.md R73, log entry 7, DEDUCED; R204 does not say it.) -/
def Obligations.LegalityByMode : Prop :=
  ∀ (i : Instr) (s : State),
    let seqCase : Prop :=
      match i with
      | .nop => False
      | .lookup _ _ => False
      | .xload _ _ => s.mode = .active
      | .xnext => s.mode = .active
      | .openTx _ => s.mode = .active
      | .build => s.mode = .idle ∨ s.exh = true
      | .closeTx => s.mode = .idle
    let handedBack : State := if i = .build ∨ i = .closeTx then { s with owner := .block } else s
    (s.mode = .halt → exec i s = .next handedBack) ∧
    (s.mode ≠ .halt → seqCase →
      exec i s = .next { handedBack with fault := .seq, finfo := encode i, mode := .halt }) ∧
    (s.mode ≠ .halt → ¬ seqCase → ∃ t, exec i s = .next t ∧ (t.fault = s.fault ∨ t.fault = .badbg))

/-- R200: how `MODE` moves, and in no other way; HALT is entered by a fault, which writes the three fault
registers and nothing else of the block. -/
def Obligations.ModeMovesOnlyAsTheTableSays : Prop :=
  (∀ (c : CmdWord) (s t : State), issueCommand c s = .next t →
    (s.mode = .halt → t.mode = .halt) ∧
    (s.mode = .idle → (t.mode = .active ↔ ∃ sel, decode c = .ok (.openTx sel))) ∧
    (s.mode = .active → (t.mode = .idle ↔ decode c = .ok .closeTx)) ∧
    (s.mode ≠ .halt → (t.mode = .halt ↔ ∃ code, code ≠ .noFault ∧
      t = { s with fault := code, finfo := c, mode := .halt, owner := t.owner }))) ∧
  (∀ (s t : State), runInput .reset s = .next t → t.mode = .idle) ∧
  (∀ (c : CmdWord) (s t : State), runInput (.resetDuring c) s = .next t → t.mode = .idle) ∧
  (∀ (src : Source) (s t : State), runInput (.bindSource src) s = .next t → t.mode = s.mode) ∧
  (∀ (a n : Nat) (s t : State), runInput (.sinkRead a n) s = .next t → t.mode = s.mode)

/-! ### Faults (60_exceptions.md) -/

/-- R224: fault entry writes `FAULT`, `FINFO` (the command word) and `MODE = HALT`, and nothing else. The
one thing that may have changed beside the entry is whose the buffer is, and only because the host has
issued a BUILD or a CLOSE (20_memory.md R73). The statement does not say that it does change; that it does is
the model's reading of R73 (log entry 7, DEDUCED). -/
def Obligations.FaultEntryWritesThreeRegisters : Prop :=
  ∀ (c : CmdWord) (s t : State), s.mode ≠ .halt → issueCommand c s = .next t → t.mode = .halt →
    t = { s with fault := t.fault, finfo := c, mode := .halt, owner := t.owner } ∧ t.fault ≠ .noFault ∧
    (t.owner ≠ s.owner → t.owner = .block ∧ (decode c = .ok .build ∨ decode c = .ok .closeTx))

/-- R225: the order of the checks: HALT ignores the word whatever it is; then ILLCMD; then SEQ; then
BADBG (LOOKUP only); and a command that passes them all raises no fault. (`o` is whose the buffer is once the
host has issued the word. That a BUILD or CLOSE word which HALT ignores, or which raises SEQ, gives the buffer
back to the block is the model's reading of 20_memory.md R73, log entry 7, DEDUCED; R225 does not say it.) -/
def Obligations.FaultPriority : Prop :=
  ∀ (c : CmdWord) (s : State),
    let o : Owner := if decode c = .ok .build ∨ decode c = .ok .closeTx then .block else s.owner
    (s.mode = .halt → issueCommand c s = .next { s with owner := o }) ∧
    (s.mode ≠ .halt → ∀ e, decode c = .error e →
      issueCommand c s = .next { s with fault := .illcmd, finfo := c, mode := .halt }) ∧
    (s.mode ≠ .halt → ∀ i, decode c = .ok i → legal i s.mode s.exh = false →
      issueCommand c s = .next { s with fault := .seq, finfo := c, mode := .halt, owner := o }) ∧
    (s.mode ≠ .halt → ∀ i, decode c = .ok i → legal i s.mode s.exh = true →
      (∀ sel bg, i = .lookup sel bg → tableSize sel ≤ bg.toNat →
        issueCommand c s = .next { s with fault := .badbg, finfo := c, mode := .halt }) ∧
      ((∀ sel bg, i = .lookup sel bg → bg.toNat < tableSize sel) →
        ∃ t, issueCommand c s = .next t ∧ t.fault = s.fault ∧ t.finfo = s.finfo ∧ t.mode ≠ .halt))

/-- R226, R227: in HALT a step that takes a command word changes no register, no memory and not the
source: it takes the word off the port. Only the reset input leaves HALT. (That a BUILD or CLOSE word which
HALT ignores still ends the sink's turn is the model's reading of 20_memory.md R73, log entry 7, DEDUCED; R226
does not say it.) -/
def Obligations.OnlyResetLeavesHalt : Prop :=
  (∀ (s : State) (c : CmdWord) (later : List Input), s.mode = .halt → s.inputs = .command c :: later →
    step s = .next { s with
      inputs := later
      owner := if decode c = .ok .build ∨ decode c = .ok .closeTx then .block else s.owner }) ∧
  (∀ s t : State, s.mode = .halt → step s = .next t → t.mode ≠ .halt →
    ∃ later, s.inputs = .reset :: later ∨ ∃ c, s.inputs = .resetDuring c :: later)

/-! ### Reset (70_reset_and_hazards.md) and the whole machine -/

/-- R251: the reset input sets all fifteen registers to 0, in every mode; the configuration, the source
and the inputs that follow are not touched. That the unspecified frame buffer then lists no byte is the
model's own form of "unspecified" (log entry 2). That the buffer is then the block's own is the model's reading
of 20_memory.md R73 beside 10_state.md R44, by which the block's reset does not reset the owner (log entry 7,
DEDUCED): it is the host's issuing of the reset that ends the sink's turn. -/
def Obligations.ResetClearsEveryRegister : Prop :=
  ∀ (s : State) (later : List Input), s.inputs = .reset :: later →
    ∃ t, step s = .next t ∧ status t = status State.reset ∧
      t.cfg = s.cfg ∧ t.src = s.src ∧ t.inputs = later ∧ t.owner = .block ∧ ∀ a, t.fb.read a = none

/-- R252: reset during a command. The registers are as after any reset; only a legal BUILD has moved the
source, whatever the source returns, over some prefix of the bytes its reads could take: the cursor is at
some position between its old value and that plus `PAYBYTES(s)`, inside the source
(93_implementation_defined.md U8). That a reset can fall inside a command that is one step is the model's
own refinement (log entry 3). That the buffer is then the block's own is the model's reading of
20_memory.md R73 beside 10_state.md R44 (log entry 7, DEDUCED). -/
def Obligations.ResetDuringBuildLeavesAPrefixOfTheReads : Prop :=
  ∀ (s : State) (c : CmdWord), s.src.wf →
    ∃ t, runInput (.resetDuring c) s = .next t ∧ status t = status State.reset ∧
      t.cfg = s.cfg ∧ t.src.bytes = s.src.bytes ∧ t.src.wf ∧
      (¬ (decode c = .ok .build ∧ s.mode = .active ∧ s.exh = false) → t.src = s.src) ∧
      (∃ n, t.src.cur = s.src.cur + n ∧ n ≤ payBytes s.cfg s.scheme ∧
        n ≤ (s.src.bytes.drop s.src.cur).length) ∧
      t.owner = .block

/-- R20 (the column "written by"), R22, R23, R24, R28, R29: a command that answers a next state changes a
register only if the table names it as a writer; the frame buffer and the source are BUILD's; whose the
buffer is changes with BUILD and CLOSE only (20_memory.md R73). -/
def Obligations.RegistersHaveOnlyTheirWriters : Prop :=
  ∀ (i : Instr) (s t : State), exec i s = .next t →
    let isOpen := ∃ sel, i = .openTx sel
    let isClose := i = .closeTx
    let isBuild := i = .build
    let isXload := ∃ sel b, i = .xload sel b
    let isXnext := i = .xnext
    let isLookup := ∃ sel bg, i = .lookup sel bg
    let entry := t = { s with fault := t.fault, finfo := encode i, mode := .halt, owner := t.owner }
    (t.mode ≠ s.mode → isOpen ∨ isClose ∨ entry) ∧
    (t.scheme ≠ s.scheme → isOpen) ∧
    (t.exh ≠ s.exh → isBuild ∨ isOpen ∨ isClose) ∧
    (t.done ≠ s.done → isBuild ∨ isOpen ∨ isClose) ∧
    (t.bytes ≠ s.bytes → isBuild ∨ isOpen ∨ isClose) ∧
    (t.wptr ≠ s.wptr → isBuild ∨ isOpen ∨ isClose) ∧
    (t.xbyte ≠ s.xbyte → isXload ∨ isBuild ∨ isOpen ∨ isClose) ∧
    (t.xrem ≠ s.xrem → isXload ∨ isXnext ∨ isBuild ∨ isOpen ∨ isClose) ∧
    (t.xw ≠ s.xw → isXload ∨ isBuild ∨ isOpen ∨ isClose) ∧
    (t.bg ≠ s.bg → isXnext ∨ isBuild ∨ isOpen ∨ isClose) ∧
    (t.xempty ≠ s.xempty → isXnext ∨ isXload ∨ isBuild ∨ isOpen ∨ isClose) ∧
    (t.symI ≠ s.symI ∨ t.symQ ≠ s.symQ → isLookup) ∧
    (t.fault ≠ s.fault ∨ t.finfo ≠ s.finfo → entry) ∧
    (t.fb ≠ s.fb ∨ t.src ≠ s.src → isBuild) ∧
    (t.owner ≠ s.owner → isBuild ∨ isClose) ∧
    (t.cfg = s.cfg ∧ t.inputs = s.inputs ∧ t.sinkData = s.sinkData ∧ t.draws = s.draws)

/-- R69: over one BUILD the cursor advances by exactly `BYTES` and the source's bytes are not changed; no
other command touches the source. -/
def Obligations.CursorAdvancesByExactlyTheBytesConsumed : Prop :=
  ∀ (i : Instr) (s t : State), exec i s = .next t →
    t.src.bytes = s.src.bytes ∧
    (i ≠ .build → t.src = s.src) ∧
    (i = .build → s.mode = .active → s.exh = false → t.src.cur = s.src.cur + t.bytes.toNat)

/-- R22: the scheme of an open transmission cannot change: a step from ACTIVE to ACTIVE keeps it, and in
general only OPEN, taken in IDLE, and reset change it. -/
def Obligations.SchemeIsFixedWithinATransmission : Prop :=
  ∀ s t : State, step s = .next t →
    (s.mode = .active → t.mode = .active → t.scheme = s.scheme) ∧
    (t.scheme ≠ s.scheme →
      (s.mode = .idle ∧ ∃ c later, s.inputs = .command c :: later ∧ decode c = .ok (.openTx t.scheme)) ∨
      (∃ later, s.inputs = .reset :: later ∨ ∃ c, s.inputs = .resetDuring c :: later))

/-- R20: the codes on the status outputs, and that after reset every output is 0 (R45). -/
def Obligations.StatusOutputsCarryTheCodes : Prop :=
  (∀ s : State,
    (status s).mode = (match s.mode with | .idle => 0#2 | .active => 1#2 | .halt => 2#2) ∧
    (status s).scheme = (match s.scheme with | .qpsk => 0#1 | .qam16 => 1#1) ∧
    (status s).fault =
      (match s.fault with | .noFault => 0#2 | .badbg => 1#2 | .illcmd => 2#2 | .seq => 3#2)) ∧
  status State.reset =
    { mode := 0#2, scheme := 0#1, exh := 0#1, done := 0#1, bytes := 0#32, wptr := 0#32, xbyte := 0#8,
      xrem := 0#3, xw := 0#1, bg := 0#4, xempty := 0#1, symI := 0#16, symQ := 0#16, fault := 0#2,
      finfo := 0#16 }

/-- R90, R95, R72: a step that finds a command word takes it: where the word decodes, the step is the
execution of its command in the state with the word taken off the port; with nothing presented the
block waits, unchanged (that it waits by answering the same state is log entry 4). -/
def Obligations.StepRunsTheDecodedCommand : Prop :=
  (∀ (s : State) (c : CmdWord) (later : List Input) (i : Instr),
    s.inputs = .command c :: later → decode c = .ok i → step s = exec i { s with inputs := later }) ∧
  (∀ s : State, s.inputs = [] → step s = .next s) ∧
  (∀ (s : State) (i : Instr), step (s.withFetchWord 16 (encode i).toNat) = exec i s)

/-- R260: every command completes, whatever the word and the state. -/
def Obligations.EveryCommandCompletes : Prop :=
  ∀ (c : CmdWord) (s : State), ∃ t, issueCommand c s = .next t

/-- The invariant of 10_state.md (R24 to R27, R29, R44) and 20_memory.md (R60, R73): every step keeps it,
whatever comes from outside. That the frame buffer stays in its canonical form is the model's own part of
it (log entry 2). -/
def Obligations.EveryStepKeepsTheInvariant : Prop :=
  ∀ s t : State, Inv s → step s = .next t → Inv t

/-- The state after reset meets the invariant. -/
def Obligations.ResetMeetsTheInvariant : Prop :=
  Inv State.reset

/-- R73, as the model reads it (log entry 7): the hand-off of the frame buffer. A legal BUILD gives it to the
sink, all its `CAP` slots written and `DONE = 1`; the host's next BUILD (legal or not, in HALT too, until it
ends with `DONE = 1`), CLOSE (in HALT too) or reset takes it back; no other step moves it. The model's reading,
DEDUCED: R73 says "until the host issues" and does not say whether a BUILD that raises SEQ, or a BUILD or CLOSE
that HALT ignores, is meant; and 10_state.md R44 says that the block's reset does not reset the owner, so that
it is the host's issuing of the reset, also in the middle of a command, that ends the sink's turn. -/
def Obligations.SinkOwnsFromBuildToTheNextBuildCloseOrReset : Prop :=
  ∀ (s t : State) (x : Input) (later : List Input), s.inputs = x :: later → step s = .next t →
    (x = .command (encode .build) → s.mode = .active → s.exh = false →
      t.owner = .sink ∧ t.done = true ∧ ∀ a, a < 4 * s.cfg.cap → (t.fb.read a).isSome) ∧
    (x = .command (encode .build) → ¬ (s.mode = .active ∧ s.exh = false) → t.owner = .block) ∧
    (x = .command (encode .closeTx) → t.owner = .block) ∧
    (x = .reset → t.owner = .block) ∧
    (∀ c, x = .resetDuring c → t.owner = .block) ∧
    (x ≠ .command (encode .build) → x ≠ .command (encode .closeTx) → x ≠ .reset →
      (∀ c, x ≠ .resetDuring c) → t.owner = s.owner)
end

