-- ==== Sys2Proof/Laws/Groups.lean ====
section
/-! SUPPORT. The laws of the derived quantities (00_scope.md R6), of the extraction function (41_bit_extractor.md R141 to R144) and of the symbol tables. -/

namespace Sys2Proof.Machine

@[simp] theorem groupsPerByte_qpsk : groupsPerByte .qpsk = 4 := rfl
@[simp] theorem groupsPerByte_qam16 : groupsPerByte .qam16 = 2 := rfl
@[simp] theorem width_qpsk : width .qpsk = 2 := rfl
@[simp] theorem width_qam16 : width .qam16 = 4 := rfl
@[simp] theorem tableSize_qpsk : tableSize .qpsk = 4 := rfl
@[simp] theorem tableSize_qam16 : tableSize .qam16 = 16 := rfl
@[simp] theorem headerGroups_qpsk : headerGroups .qpsk = 80 := rfl
@[simp] theorem headerGroups_qam16 : headerGroups .qam16 = 40 := rfl

theorem groupsPerByte_pos (s : Scheme) : 0 < groupsPerByte s := by cases s <;> decide

theorem groupsPerByte_ge (s : Scheme) : 2 ≤ groupsPerByte s := by cases s <;> decide

theorem groupsPerByte_le (s : Scheme) : groupsPerByte s ≤ 4 := by cases s <;> decide

theorem headerGroups_eq (s : Scheme) : headerGroups s = groupsPerByte s * 20 := by cases s <;> rfl

theorem headerGroups_le_cap (c : Config) (s : Scheme) : headerGroups s + 4 ≤ c.cap := by
  have := c.ok.2.1
  cases s <;> simp <;> omega

/-- The payload slots of a frame hold a whole number of bytes (R7(a)). -/
theorem payBytes_mul (c : Config) (s : Scheme) : groupsPerByte s * payBytes c s = payCap c s := by
  have h1 := c.ok.1
  have h2 := c.ok.2.1
  cases s <;> simp [payBytes, payCap] <;> omega

theorem header_add_payBytes (c : Config) (s : Scheme) :
    groupsPerByte s * 20 + groupsPerByte s * payBytes c s = c.cap := by
  have := headerGroups_le_cap c s
  rw [payBytes_mul, ← headerGroups_eq, payCap]
  omega

theorem payBytes_pos (c : Config) (s : Scheme) : 0 < payBytes c s := by
  have h := headerGroups_le_cap c s
  have h1 := payBytes_mul c s
  rcases Nat.eq_zero_or_pos (payBytes c s) with h0 | h0
  · rw [h0, payCap] at h1
    omega
  · exact h0

@[simp] theorem byteGroups_length (s : Scheme) (b : Byte) :
    (byteGroups s b).length = groupsPerByte s := by
  simp [byteGroups]

@[simp] theorem groups_nil (s : Scheme) : groups s [] = [] := rfl

theorem groups_cons (s : Scheme) (b : Byte) (bs : List Byte) :
    groups s (b :: bs) = byteGroups s b ++ groups s bs := rfl

/-- Extraction of a concatenation (R143): the output does not depend on how the bytes were cut. -/
theorem groups_append (s : Scheme) (x y : List Byte) :
    groups s (x ++ y) = groups s x ++ groups s y := by
  simp [groups]

theorem groups_length_eq (s : Scheme) (bs : List Byte) :
    (groups s bs).length = groupsPerByte s * bs.length := by
  induction bs with
  | nil => simp
  | cons b bs ih => rw [groups_cons, List.length_append, ih, byteGroups_length, List.length_cons]; ring

/-- The groups of one byte, spelled out (20_memory.md R77). -/
theorem byteGroups_qpsk (b : Byte) :
    byteGroups .qpsk b =
      [shiftMask .qpsk b 3, shiftMask .qpsk b 2, shiftMask .qpsk b 1, shiftMask .qpsk b 0] := rfl

theorem byteGroups_qam16 (b : Byte) :
    byteGroups .qam16 b = [shiftMask .qam16 b 1, shiftMask .qam16 b 0] := rfl

/-- A group is below `N(s)` (R141: the and with `mask(s)`). -/
theorem shiftMask_lt (s : Scheme) (b : Byte) (k : Nat) : (shiftMask s b k).toNat < tableSize s := by
  cases s
  · simp only [shiftMask, groupMask, width_qpsk, tableSize_qpsk, BitVec.toNat_setWidth,
      BitVec.toNat_and, BitVec.toNat_ushiftRight]
    have h : (b.toNat >>> (k * 2)) &&& 3 ≤ 3 := Nat.and_le_right
    exact lt_of_le_of_lt (Nat.mod_le _ _) (by simpa using Nat.lt_succ_of_le h)
  · exact (shiftMask .qam16 b k).isLt

/-- `T(s, g)` for a group in range is the table's entry. -/
theorem symbolAt_of_lt (c : Config) (s : Scheme) {g : Nat} (h : g < tableSize s) :
    symbolAt c s g = some (romEntry c s (BitVec.ofNat 4 g)) := by
  simp [symbolAt, h]

theorem symbolAt_eq_none (c : Config) (s : Scheme) (g : Nat) :
    symbolAt c s g = none ↔ tableSize s ≤ g := by
  simp [symbolAt]

end Sys2Proof.Machine
end

