-- ==== Sys2Proof/Laws/Memory.lean ====
section
/-! SUPPORT. The laws of the frame buffer's bytes: read after write, the canonical form, and what a store touches. -/

namespace Sys2Proof.Machine

@[simp] theorem Memory.read_nil (a : Nat) : Memory.read [] a = none := rfl

theorem Memory.read_cons (c : Host.Cell) (m : Memory) (a : Nat) :
    Memory.read (c :: m) a = if a = c.1 then some c.2 else Memory.read m a := rfl

@[simp] theorem Memory.read_write_same (m : Memory) (a : Nat) (b : Byte) :
    (m.write a b).read a = some b := by
  induction m with
  | nil => simp [Memory.write, Memory.read]
  | cons c m ih =>
    simp only [Memory.write]
    split
    · simp [Memory.read]
    · split
      · simp [Memory.read]
      · simp [Memory.read, *]

theorem Memory.read_write_other (m : Memory) {a x : Nat} (b : Byte) (h : x ≠ a) :
    (m.write a b).read x = m.read x := by
  induction m with
  | nil => simp [Memory.write, Memory.read, h, Memory.unlisted]
  | cons c m ih =>
    simp only [Memory.write]
    split
    · simp [Memory.read, h]
    · split
      · next he => simp [Memory.read, h, ← he]
      · simp [Memory.read, ih]

theorem Memory.mem_write {m : Memory} {a : Nat} {b : Byte} {c : Host.Cell}
    (h : c ∈ m.write a b) : c.1 = a ∨ c ∈ m := by
  induction m with
  | nil => simp [Memory.write] at h; simp [h]
  | cons d m ih =>
    simp only [Memory.write] at h
    split at h
    · simp only [List.mem_cons] at h ⊢
      obtain rfl | h := h
      · exact .inl rfl
      · exact .inr h
    · split at h
      · simp only [List.mem_cons] at h ⊢
        obtain rfl | h := h
        · exact .inl rfl
        · exact .inr (.inr h)
      · simp only [List.mem_cons] at h ⊢
        obtain rfl | h := h
        · exact .inr (.inl rfl)
        · exact (ih h).imp id .inr

/-- Writing a byte keeps the canonical form. -/
theorem Memory.write_wf {m : Memory} (h : m.wf) (a : Nat) (b : Byte) : (m.write a b).wf := by
  induction m with
  | nil => simp [Memory.write, Memory.wf]
  | cons c m ih =>
    simp only [Memory.wf, List.pairwise_cons] at h ih ⊢
    simp only [Memory.write]
    split
    · next hlt =>
      simp only [List.pairwise_cons, List.mem_cons]
      refine ⟨?_, h⟩
      rintro d (rfl | hd)
      · exact hlt
      · exact lt_trans hlt (h.1 d hd)
    · split
      · next he =>
        simp only [List.pairwise_cons]
        exact ⟨fun d hd => he ▸ h.1 d hd, h.2⟩
      · next hlt hne =>
        simp only [List.pairwise_cons]
        refine ⟨fun d hd => ?_, ih h.2⟩
        obtain hd | hd := Memory.mem_write hd
        · have : c.1 ≠ a := fun e => hne e.symm
          omega
        · exact h.1 d hd

/-- A multi-byte store keeps the canonical form. -/
theorem memWrite_wf {m : Memory} (h : m.wf) (a n : Nat) (v : BitVec 32) : (memWrite m a n v).wf := by
  induction n generalizing m a v with
  | zero => exact h
  | succ n ih => exact ih (Memory.write_wf h _ _) _ _

/-- A multi-byte store leaves every byte outside the stored ones alone. -/
theorem read_memWrite_other (m : Memory) (a n : Nat) (v : BitVec 32) {x : Nat}
    (h : x < a ∨ a + n ≤ x) : (memWrite m a n v).read x = m.read x := by
  induction n generalizing m a v with
  | zero => rfl
  | succ n ih =>
    rw [memWrite, ih _ _ _ (by omega), Memory.read_write_other _ _ (by omega)]

/-- The bytes of a multi-byte store, little-endian (20_memory.md R62). -/
theorem read_memWrite_inside (m : Memory) (a n : Nat) (v : BitVec 32) {k : Nat} (h : k < n) :
    (memWrite m a n v).read (a + k) = some ((v >>> (8 * k)).setWidth 8) := by
  induction n generalizing m a v k with
  | zero => omega
  | succ n ih =>
    cases k with
    | zero =>
      rw [memWrite, read_memWrite_other _ _ _ _ (by omega)]
      simp
    | succ k =>
      have := ih (m.write a (v.setWidth 8)) (a + 1) (v >>> 8) (k := k) (by omega)
      rw [memWrite, show a + (k + 1) = a + 1 + k by omega, this, ← BitVec.shiftRight_add,
        show 8 + 8 * k = 8 * (k + 1) by omega]

/-- A store's cells: the stored addresses and the old ones. -/
theorem mem_memWrite {m : Memory} {a n : Nat} {v : BitVec 32} {c : Host.Cell}
    (h : c ∈ memWrite m a n v) : (a ≤ c.1 ∧ c.1 < a + n) ∨ c ∈ m := by
  induction n generalizing m a v with
  | zero => exact .inr h
  | succ n ih =>
    obtain h | h := ih h
    · exact .inl (by omega)
    · exact (Memory.mem_write h).imp (fun e => by omega) id

/-- A read depends on its own bytes only. -/
theorem memRead_congr {m m' : Memory} {a n : Nat}
    (h : ∀ x, a ≤ x → x < a + n → m.read x = m'.read x) : memRead m a n = memRead m' a n := by
  induction n generalizing a with
  | zero => rfl
  | succ n ih =>
    rw [memRead, memRead, h a (by omega) (by omega), ih fun x h1 h2 => h x (by omega) (by omega)]

/-- A read of listed bytes has a value. -/
theorem memRead_isSome {m : Memory} {a n : Nat}
    (h : ∀ x, a ≤ x → x < a + n → (m.read x).isSome) : (memRead m a n).isSome := by
  induction n generalizing a with
  | zero => rfl
  | succ n ih =>
    obtain ⟨b, hb⟩ := Option.isSome_iff_exists.mp (h a (by omega) (by omega))
    obtain ⟨v, hv⟩ := Option.isSome_iff_exists.mp (ih (a := a + 1) fun x h1 h2 => h x (by omega) (by omega))
    simp [memRead, hb, hv]

/-- A read of four bytes gives back the word whose bytes they are. -/
theorem memRead_word {m : Memory} {a : Nat} {v : BitVec 32}
    (h : ∀ k, k < 4 → m.read (a + k) = some ((v >>> (8 * k)).setWidth 8)) :
    memRead m a 4 = some v := by
  have h0 := h 0 (by omega)
  have h1 := h 1 (by omega)
  have h2 := h 2 (by omega)
  have h3 := h 3 (by omega)
  simp only [Nat.add_zero] at h0
  simp only [memRead, h0, h1, h2, h3, show a + 1 + 1 = a + 2 by rfl, show a + 2 + 1 = a + 3 by rfl]
  congr 1
  ext i hi
  simp only [BitVec.getElem_or, BitVec.getElem_shiftLeft, BitVec.getElem_setWidth,
    BitVec.getLsbD_ushiftRight, BitVec.getLsbD_setWidth]
  interval_cases i <;> simp [BitVec.getLsbD_eq_getElem]

@[simp] theorem slotAddr_eq (n : Nat) : slotAddr n = 4 * n := rfl

/-- A slot reads as the symbol word just stored in it. -/
theorem memRead_fbWrite_same (m : Memory) (n : Nat) (x : Symbol) :
    memRead (fbWrite m n x) (slotAddr n) 4 = some (symbolWord x) :=
  memRead_word fun _ hk => read_memWrite_inside _ _ _ _ hk

/-- A slot store leaves every byte of the other slots alone. -/
theorem read_fbWrite_other (m : Memory) (n : Nat) (x : Symbol) {a : Nat}
    (h : a < 4 * n ∨ 4 * n + 4 ≤ a) : (fbWrite m n x).read a = m.read a :=
  read_memWrite_other _ _ _ _ h

/-- A slot store lists its four bytes. -/
theorem read_fbWrite_inside (m : Memory) (n : Nat) (x : Symbol) {a : Nat}
    (h1 : 4 * n ≤ a) (h2 : a < 4 * n + 4) :
    (fbWrite m n x).read a = some ((symbolWord x >>> (8 * (a - 4 * n))).setWidth 8) := by
  have := read_memWrite_inside m (slotAddr n) 4 (symbolWord x) (k := a - 4 * n) (by omega)
  rwa [slotAddr_eq, show 4 * n + (a - 4 * n) = a by omega] at this

theorem fbWrite_wf {m : Memory} (h : m.wf) (n : Nat) (x : Symbol) : (fbWrite m n x).wf :=
  memWrite_wf h _ _ _

theorem mem_fbWrite {m : Memory} {n : Nat} {x : Symbol} {c : Host.Cell}
    (h : c ∈ fbWrite m n x) : (4 * n ≤ c.1 ∧ c.1 < 4 * n + 4) ∨ c ∈ m :=
  mem_memWrite h

end Sys2Proof.Machine
end

