-- ==== Sys2Proof/Laws/Source.lean ====
section
/-! SUPPORT. The laws of the source port (20_memory.md R66 to R69). -/

namespace Sys2Proof.Machine

theorem Source.rest_length (src : Source) : src.rest.length = src.bytes.length - src.cur := by
  simp [Source.rest]

/-- A read never returns more than was asked for or than is left. -/
theorem Source.readCount_le (src : Source) (n : Nat) :
    src.readCount n ≤ n ∧ src.readCount n ≤ src.rest.length := by
  rw [Source.rest_length]
  unfold Source.readCount
  split <;> omega

/-- Under the source contract (R68) a read is short only at the end. -/
theorem Source.readCount_contract {src : Source} (h : src.contract) (n : Nat) :
    src.readCount n = min n src.rest.length := by
  rw [Source.rest_length]
  unfold Source.readCount
  rw [show src.limits = [] from h]

/-- Everything a source read does: the next bytes in order, the cursor past exactly them. -/
theorem srcRead_spec (src : Source) (n : Nat) :
    (srcRead src n).1 = src.rest.take (src.readCount n) ∧
    (srcRead src n).1.length = src.readCount n ∧
    (srcRead src n).2.bytes = src.bytes ∧
    (srcRead src n).2.cur = src.cur + src.readCount n ∧
    (srcRead src n).2.limits = src.limits.tail := by
  refine ⟨rfl, ?_, rfl, rfl, rfl⟩
  have := (src.readCount_le n).2
  simp only [srcRead, List.length_take]
  omega

theorem Source.afterRead_wf {src : Source} (h : src.wf) (n : Nat) : (src.afterRead n).wf := by
  have := (src.readCount_le n).2
  rw [Source.rest_length] at this
  simp only [Source.wf, Source.afterRead] at *
  omega

theorem Source.rest_afterRead (src : Source) (n : Nat) :
    (src.afterRead n).rest = src.rest.drop (src.readCount n) := by
  simp [Source.rest, Source.afterRead]

theorem srcEnd_iff {src : Source} (h : src.wf) : srcEnd src = true ↔ src.rest = [] := by
  simp only [Source.wf] at h
  simp [srcEnd, Source.rest]
  omega

end Sys2Proof.Machine
end

