-- ==== Sys2Proof/Laws/State.lean ====
section
/-! SUPPORT. One lemma per field of State and named update, so that no proof unfolds a record update. -/

namespace Sys2Proof.Machine

section raiseFault
variable (code : FaultCode) (c : CmdWord) (s : State)

@[simp] theorem raiseFault_cfg : (raiseFault code c s).cfg = s.cfg := rfl
@[simp] theorem raiseFault_mode : (raiseFault code c s).mode = .halt := rfl
@[simp] theorem raiseFault_scheme : (raiseFault code c s).scheme = s.scheme := rfl
@[simp] theorem raiseFault_exh : (raiseFault code c s).exh = s.exh := rfl
@[simp] theorem raiseFault_done : (raiseFault code c s).done = s.done := rfl
@[simp] theorem raiseFault_bytes : (raiseFault code c s).bytes = s.bytes := rfl
@[simp] theorem raiseFault_wptr : (raiseFault code c s).wptr = s.wptr := rfl
@[simp] theorem raiseFault_xbyte : (raiseFault code c s).xbyte = s.xbyte := rfl
@[simp] theorem raiseFault_xrem : (raiseFault code c s).xrem = s.xrem := rfl
@[simp] theorem raiseFault_xw : (raiseFault code c s).xw = s.xw := rfl
@[simp] theorem raiseFault_bg : (raiseFault code c s).bg = s.bg := rfl
@[simp] theorem raiseFault_xempty : (raiseFault code c s).xempty = s.xempty := rfl
@[simp] theorem raiseFault_symI : (raiseFault code c s).symI = s.symI := rfl
@[simp] theorem raiseFault_symQ : (raiseFault code c s).symQ = s.symQ := rfl
@[simp] theorem raiseFault_fault : (raiseFault code c s).fault = code := rfl
@[simp] theorem raiseFault_finfo : (raiseFault code c s).finfo = c := rfl
@[simp] theorem raiseFault_fb : (raiseFault code c s).fb = s.fb := rfl
@[simp] theorem raiseFault_src : (raiseFault code c s).src = s.src := rfl
@[simp] theorem raiseFault_owner : (raiseFault code c s).owner = s.owner := rfl
@[simp] theorem raiseFault_inputs : (raiseFault code c s).inputs = s.inputs := rfl
@[simp] theorem raiseFault_sinkData : (raiseFault code c s).sinkData = s.sinkData := rfl
@[simp] theorem raiseFault_draws : (raiseFault code c s).draws = s.draws := rfl

end raiseFault

section handBack
variable (i : Instr) (s : State)

@[simp] theorem handBack_cfg : (handBack i s).cfg = s.cfg := rfl
@[simp] theorem handBack_mode : (handBack i s).mode = s.mode := rfl
@[simp] theorem handBack_scheme : (handBack i s).scheme = s.scheme := rfl
@[simp] theorem handBack_exh : (handBack i s).exh = s.exh := rfl
@[simp] theorem handBack_done : (handBack i s).done = s.done := rfl
@[simp] theorem handBack_bytes : (handBack i s).bytes = s.bytes := rfl
@[simp] theorem handBack_wptr : (handBack i s).wptr = s.wptr := rfl
@[simp] theorem handBack_xbyte : (handBack i s).xbyte = s.xbyte := rfl
@[simp] theorem handBack_xrem : (handBack i s).xrem = s.xrem := rfl
@[simp] theorem handBack_xw : (handBack i s).xw = s.xw := rfl
@[simp] theorem handBack_bg : (handBack i s).bg = s.bg := rfl
@[simp] theorem handBack_xempty : (handBack i s).xempty = s.xempty := rfl
@[simp] theorem handBack_symI : (handBack i s).symI = s.symI := rfl
@[simp] theorem handBack_symQ : (handBack i s).symQ = s.symQ := rfl
@[simp] theorem handBack_fault : (handBack i s).fault = s.fault := rfl
@[simp] theorem handBack_finfo : (handBack i s).finfo = s.finfo := rfl
@[simp] theorem handBack_fb : (handBack i s).fb = s.fb := rfl
@[simp] theorem handBack_src : (handBack i s).src = s.src := rfl
@[simp] theorem handBack_owner : (handBack i s).owner = ownerWhenIssued i s.owner := rfl
@[simp] theorem handBack_inputs : (handBack i s).inputs = s.inputs := rfl
@[simp] theorem handBack_sinkData : (handBack i s).sinkData = s.sinkData := rfl
@[simp] theorem handBack_draws : (handBack i s).draws = s.draws := rfl

end handBack

section takeBack
variable (s : State)

@[simp] theorem takeBack_cfg : (takeBack s).cfg = s.cfg := rfl
@[simp] theorem takeBack_mode : (takeBack s).mode = s.mode := rfl
@[simp] theorem takeBack_scheme : (takeBack s).scheme = s.scheme := rfl
@[simp] theorem takeBack_exh : (takeBack s).exh = s.exh := rfl
@[simp] theorem takeBack_done : (takeBack s).done = s.done := rfl
@[simp] theorem takeBack_bytes : (takeBack s).bytes = s.bytes := rfl
@[simp] theorem takeBack_wptr : (takeBack s).wptr = s.wptr := rfl
@[simp] theorem takeBack_xbyte : (takeBack s).xbyte = s.xbyte := rfl
@[simp] theorem takeBack_xrem : (takeBack s).xrem = s.xrem := rfl
@[simp] theorem takeBack_xw : (takeBack s).xw = s.xw := rfl
@[simp] theorem takeBack_bg : (takeBack s).bg = s.bg := rfl
@[simp] theorem takeBack_xempty : (takeBack s).xempty = s.xempty := rfl
@[simp] theorem takeBack_symI : (takeBack s).symI = s.symI := rfl
@[simp] theorem takeBack_symQ : (takeBack s).symQ = s.symQ := rfl
@[simp] theorem takeBack_fault : (takeBack s).fault = s.fault := rfl
@[simp] theorem takeBack_finfo : (takeBack s).finfo = s.finfo := rfl
@[simp] theorem takeBack_fb : (takeBack s).fb = s.fb := rfl
@[simp] theorem takeBack_src : (takeBack s).src = s.src := rfl
@[simp] theorem takeBack_owner : (takeBack s).owner = .block := rfl
@[simp] theorem takeBack_inputs : (takeBack s).inputs = s.inputs := rfl
@[simp] theorem takeBack_sinkData : (takeBack s).sinkData = s.sinkData := rfl
@[simp] theorem takeBack_draws : (takeBack s).draws = s.draws := rfl

end takeBack

section clearTransmission
variable (s : State)

@[simp] theorem clearTransmission_cfg : (clearTransmission s).cfg = s.cfg := rfl
@[simp] theorem clearTransmission_mode : (clearTransmission s).mode = s.mode := rfl
@[simp] theorem clearTransmission_scheme : (clearTransmission s).scheme = s.scheme := rfl
@[simp] theorem clearTransmission_exh : (clearTransmission s).exh = false := rfl
@[simp] theorem clearTransmission_done : (clearTransmission s).done = false := rfl
@[simp] theorem clearTransmission_bytes : (clearTransmission s).bytes = 0#32 := rfl
@[simp] theorem clearTransmission_wptr : (clearTransmission s).wptr = 0#32 := rfl
@[simp] theorem clearTransmission_xbyte : (clearTransmission s).xbyte = 0#8 := rfl
@[simp] theorem clearTransmission_xrem : (clearTransmission s).xrem = 0#3 := rfl
@[simp] theorem clearTransmission_xw : (clearTransmission s).xw = .qpsk := rfl
@[simp] theorem clearTransmission_bg : (clearTransmission s).bg = 0#4 := rfl
@[simp] theorem clearTransmission_xempty : (clearTransmission s).xempty = false := rfl
@[simp] theorem clearTransmission_symI : (clearTransmission s).symI = s.symI := rfl
@[simp] theorem clearTransmission_symQ : (clearTransmission s).symQ = s.symQ := rfl
@[simp] theorem clearTransmission_fault : (clearTransmission s).fault = s.fault := rfl
@[simp] theorem clearTransmission_finfo : (clearTransmission s).finfo = s.finfo := rfl
@[simp] theorem clearTransmission_fb : (clearTransmission s).fb = s.fb := rfl
@[simp] theorem clearTransmission_src : (clearTransmission s).src = s.src := rfl
@[simp] theorem clearTransmission_owner : (clearTransmission s).owner = s.owner := rfl
@[simp] theorem clearTransmission_inputs : (clearTransmission s).inputs = s.inputs := rfl
@[simp] theorem clearTransmission_sinkData : (clearTransmission s).sinkData = s.sinkData := rfl
@[simp] theorem clearTransmission_draws : (clearTransmission s).draws = s.draws := rfl

end clearTransmission

section resetBlock
variable (s : State)

@[simp] theorem resetBlock_cfg : (resetBlock s).cfg = s.cfg := rfl
@[simp] theorem resetBlock_mode : (resetBlock s).mode = .idle := rfl
@[simp] theorem resetBlock_scheme : (resetBlock s).scheme = .qpsk := rfl
@[simp] theorem resetBlock_exh : (resetBlock s).exh = false := rfl
@[simp] theorem resetBlock_done : (resetBlock s).done = false := rfl
@[simp] theorem resetBlock_bytes : (resetBlock s).bytes = 0#32 := rfl
@[simp] theorem resetBlock_wptr : (resetBlock s).wptr = 0#32 := rfl
@[simp] theorem resetBlock_xbyte : (resetBlock s).xbyte = 0#8 := rfl
@[simp] theorem resetBlock_xrem : (resetBlock s).xrem = 0#3 := rfl
@[simp] theorem resetBlock_xw : (resetBlock s).xw = .qpsk := rfl
@[simp] theorem resetBlock_bg : (resetBlock s).bg = 0#4 := rfl
@[simp] theorem resetBlock_xempty : (resetBlock s).xempty = false := rfl
@[simp] theorem resetBlock_symI : (resetBlock s).symI = 0#16 := rfl
@[simp] theorem resetBlock_symQ : (resetBlock s).symQ = 0#16 := rfl
@[simp] theorem resetBlock_fault : (resetBlock s).fault = .noFault := rfl
@[simp] theorem resetBlock_finfo : (resetBlock s).finfo = 0#16 := rfl
@[simp] theorem resetBlock_fb : (resetBlock s).fb = [] := rfl
@[simp] theorem resetBlock_src : (resetBlock s).src = s.src := rfl
@[simp] theorem resetBlock_owner : (resetBlock s).owner = s.owner := rfl
@[simp] theorem resetBlock_inputs : (resetBlock s).inputs = s.inputs := rfl
@[simp] theorem resetBlock_sinkData : (resetBlock s).sinkData = s.sinkData := rfl
@[simp] theorem resetBlock_draws : (resetBlock s).draws = s.draws := rfl

end resetBlock

section startFrame
variable (s : State)

@[simp] theorem startFrame_cfg : (startFrame s).cfg = s.cfg := rfl
@[simp] theorem startFrame_mode : (startFrame s).mode = s.mode := rfl
@[simp] theorem startFrame_scheme : (startFrame s).scheme = s.scheme := rfl
@[simp] theorem startFrame_exh : (startFrame s).exh = s.exh := rfl
@[simp] theorem startFrame_done : (startFrame s).done = false := rfl
@[simp] theorem startFrame_bytes : (startFrame s).bytes = 0#32 := rfl
@[simp] theorem startFrame_wptr : (startFrame s).wptr = 0#32 := rfl
@[simp] theorem startFrame_xbyte : (startFrame s).xbyte = s.xbyte := rfl
@[simp] theorem startFrame_xrem : (startFrame s).xrem = s.xrem := rfl
@[simp] theorem startFrame_xw : (startFrame s).xw = s.xw := rfl
@[simp] theorem startFrame_bg : (startFrame s).bg = s.bg := rfl
@[simp] theorem startFrame_xempty : (startFrame s).xempty = s.xempty := rfl
@[simp] theorem startFrame_symI : (startFrame s).symI = s.symI := rfl
@[simp] theorem startFrame_symQ : (startFrame s).symQ = s.symQ := rfl
@[simp] theorem startFrame_fault : (startFrame s).fault = s.fault := rfl
@[simp] theorem startFrame_finfo : (startFrame s).finfo = s.finfo := rfl
@[simp] theorem startFrame_fb : (startFrame s).fb = s.fb := rfl
@[simp] theorem startFrame_src : (startFrame s).src = s.src := rfl
@[simp] theorem startFrame_owner : (startFrame s).owner = .block := rfl
@[simp] theorem startFrame_inputs : (startFrame s).inputs = s.inputs := rfl
@[simp] theorem startFrame_sinkData : (startFrame s).sinkData = s.sinkData := rfl
@[simp] theorem startFrame_draws : (startFrame s).draws = s.draws := rfl

end startFrame

section endFrame
variable (e : Bool) (s : State)

@[simp] theorem endFrame_cfg : (endFrame e s).cfg = s.cfg := rfl
@[simp] theorem endFrame_mode : (endFrame e s).mode = s.mode := rfl
@[simp] theorem endFrame_scheme : (endFrame e s).scheme = s.scheme := rfl
@[simp] theorem endFrame_exh : (endFrame e s).exh = e := rfl
@[simp] theorem endFrame_done : (endFrame e s).done = true := rfl
@[simp] theorem endFrame_bytes : (endFrame e s).bytes = s.bytes := rfl
@[simp] theorem endFrame_wptr : (endFrame e s).wptr = s.wptr := rfl
@[simp] theorem endFrame_xbyte : (endFrame e s).xbyte = s.xbyte := rfl
@[simp] theorem endFrame_xrem : (endFrame e s).xrem = s.xrem := rfl
@[simp] theorem endFrame_xw : (endFrame e s).xw = s.xw := rfl
@[simp] theorem endFrame_bg : (endFrame e s).bg = s.bg := rfl
@[simp] theorem endFrame_xempty : (endFrame e s).xempty = s.xempty := rfl
@[simp] theorem endFrame_symI : (endFrame e s).symI = s.symI := rfl
@[simp] theorem endFrame_symQ : (endFrame e s).symQ = s.symQ := rfl
@[simp] theorem endFrame_fault : (endFrame e s).fault = s.fault := rfl
@[simp] theorem endFrame_finfo : (endFrame e s).finfo = s.finfo := rfl
@[simp] theorem endFrame_fb : (endFrame e s).fb = s.fb := rfl
@[simp] theorem endFrame_src : (endFrame e s).src = s.src := rfl
@[simp] theorem endFrame_owner : (endFrame e s).owner = .sink := rfl
@[simp] theorem endFrame_inputs : (endFrame e s).inputs = s.inputs := rfl
@[simp] theorem endFrame_sinkData : (endFrame e s).sinkData = s.sinkData := rfl
@[simp] theorem endFrame_draws : (endFrame e s).draws = s.draws := rfl

end endFrame

section loadByte
variable (w : Scheme) (b : Byte) (s : State)

@[simp] theorem loadByte_cfg : (loadByte w b s).cfg = s.cfg := rfl
@[simp] theorem loadByte_mode : (loadByte w b s).mode = s.mode := rfl
@[simp] theorem loadByte_scheme : (loadByte w b s).scheme = s.scheme := rfl
@[simp] theorem loadByte_exh : (loadByte w b s).exh = s.exh := rfl
@[simp] theorem loadByte_done : (loadByte w b s).done = s.done := rfl
@[simp] theorem loadByte_bytes : (loadByte w b s).bytes = s.bytes := rfl
@[simp] theorem loadByte_wptr : (loadByte w b s).wptr = s.wptr := rfl
@[simp] theorem loadByte_xbyte : (loadByte w b s).xbyte = b := rfl
@[simp] theorem loadByte_xrem : (loadByte w b s).xrem = BitVec.ofNat 3 (groupsPerByte w) := rfl
@[simp] theorem loadByte_xw : (loadByte w b s).xw = w := rfl
@[simp] theorem loadByte_bg : (loadByte w b s).bg = s.bg := rfl
@[simp] theorem loadByte_xempty : (loadByte w b s).xempty = false := rfl
@[simp] theorem loadByte_symI : (loadByte w b s).symI = s.symI := rfl
@[simp] theorem loadByte_symQ : (loadByte w b s).symQ = s.symQ := rfl
@[simp] theorem loadByte_fault : (loadByte w b s).fault = s.fault := rfl
@[simp] theorem loadByte_finfo : (loadByte w b s).finfo = s.finfo := rfl
@[simp] theorem loadByte_fb : (loadByte w b s).fb = s.fb := rfl
@[simp] theorem loadByte_src : (loadByte w b s).src = s.src := rfl
@[simp] theorem loadByte_owner : (loadByte w b s).owner = s.owner := rfl
@[simp] theorem loadByte_inputs : (loadByte w b s).inputs = s.inputs := rfl
@[simp] theorem loadByte_sinkData : (loadByte w b s).sinkData = s.sinkData := rfl
@[simp] theorem loadByte_draws : (loadByte w b s).draws = s.draws := rfl

end loadByte

section takeGroup
variable (s : State)

@[simp] theorem takeGroup_cfg : (takeGroup s).cfg = s.cfg := rfl
@[simp] theorem takeGroup_mode : (takeGroup s).mode = s.mode := rfl
@[simp] theorem takeGroup_scheme : (takeGroup s).scheme = s.scheme := rfl
@[simp] theorem takeGroup_exh : (takeGroup s).exh = s.exh := rfl
@[simp] theorem takeGroup_done : (takeGroup s).done = s.done := rfl
@[simp] theorem takeGroup_bytes : (takeGroup s).bytes = s.bytes := rfl
@[simp] theorem takeGroup_wptr : (takeGroup s).wptr = s.wptr := rfl
@[simp] theorem takeGroup_xbyte : (takeGroup s).xbyte = s.xbyte := rfl
@[simp] theorem takeGroup_xrem : (takeGroup s).xrem = s.xrem - 1#3 := rfl
@[simp] theorem takeGroup_xw : (takeGroup s).xw = s.xw := rfl
@[simp] theorem takeGroup_bg : (takeGroup s).bg = nextGroup s := rfl
@[simp] theorem takeGroup_xempty : (takeGroup s).xempty = false := rfl
@[simp] theorem takeGroup_symI : (takeGroup s).symI = s.symI := rfl
@[simp] theorem takeGroup_symQ : (takeGroup s).symQ = s.symQ := rfl
@[simp] theorem takeGroup_fault : (takeGroup s).fault = s.fault := rfl
@[simp] theorem takeGroup_finfo : (takeGroup s).finfo = s.finfo := rfl
@[simp] theorem takeGroup_fb : (takeGroup s).fb = s.fb := rfl
@[simp] theorem takeGroup_src : (takeGroup s).src = s.src := rfl
@[simp] theorem takeGroup_owner : (takeGroup s).owner = s.owner := rfl
@[simp] theorem takeGroup_inputs : (takeGroup s).inputs = s.inputs := rfl
@[simp] theorem takeGroup_sinkData : (takeGroup s).sinkData = s.sinkData := rfl
@[simp] theorem takeGroup_draws : (takeGroup s).draws = s.draws := rfl

end takeGroup

section putSymbol
variable (x : Symbol) (s : State)

@[simp] theorem putSymbol_cfg : (putSymbol x s).cfg = s.cfg := rfl
@[simp] theorem putSymbol_mode : (putSymbol x s).mode = s.mode := rfl
@[simp] theorem putSymbol_scheme : (putSymbol x s).scheme = s.scheme := rfl
@[simp] theorem putSymbol_exh : (putSymbol x s).exh = s.exh := rfl
@[simp] theorem putSymbol_done : (putSymbol x s).done = s.done := rfl
@[simp] theorem putSymbol_bytes : (putSymbol x s).bytes = s.bytes := rfl
@[simp] theorem putSymbol_wptr : (putSymbol x s).wptr = s.wptr + 1#32 := rfl
@[simp] theorem putSymbol_xbyte : (putSymbol x s).xbyte = s.xbyte := rfl
@[simp] theorem putSymbol_xrem : (putSymbol x s).xrem = s.xrem := rfl
@[simp] theorem putSymbol_xw : (putSymbol x s).xw = s.xw := rfl
@[simp] theorem putSymbol_bg : (putSymbol x s).bg = s.bg := rfl
@[simp] theorem putSymbol_xempty : (putSymbol x s).xempty = s.xempty := rfl
@[simp] theorem putSymbol_symI : (putSymbol x s).symI = s.symI := rfl
@[simp] theorem putSymbol_symQ : (putSymbol x s).symQ = s.symQ := rfl
@[simp] theorem putSymbol_fault : (putSymbol x s).fault = s.fault := rfl
@[simp] theorem putSymbol_finfo : (putSymbol x s).finfo = s.finfo := rfl
@[simp] theorem putSymbol_fb : (putSymbol x s).fb = fbWrite s.fb s.wptr.toNat x := rfl
@[simp] theorem putSymbol_src : (putSymbol x s).src = s.src := rfl
@[simp] theorem putSymbol_owner : (putSymbol x s).owner = s.owner := rfl
@[simp] theorem putSymbol_inputs : (putSymbol x s).inputs = s.inputs := rfl
@[simp] theorem putSymbol_sinkData : (putSymbol x s).sinkData = s.sinkData := rfl
@[simp] theorem putSymbol_draws : (putSymbol x s).draws = s.draws := rfl

end putSymbol

section emitGroup
variable (s : State)

@[simp] theorem emitGroup_cfg : (emitGroup s).cfg = s.cfg := rfl
@[simp] theorem emitGroup_mode : (emitGroup s).mode = s.mode := rfl
@[simp] theorem emitGroup_scheme : (emitGroup s).scheme = s.scheme := rfl
@[simp] theorem emitGroup_exh : (emitGroup s).exh = s.exh := rfl
@[simp] theorem emitGroup_done : (emitGroup s).done = s.done := rfl
@[simp] theorem emitGroup_bytes : (emitGroup s).bytes = s.bytes := rfl
@[simp] theorem emitGroup_wptr : (emitGroup s).wptr = s.wptr + 1#32 := rfl
@[simp] theorem emitGroup_xbyte : (emitGroup s).xbyte = s.xbyte := rfl
@[simp] theorem emitGroup_xrem : (emitGroup s).xrem = s.xrem - 1#3 := rfl
@[simp] theorem emitGroup_xw : (emitGroup s).xw = s.xw := rfl
@[simp] theorem emitGroup_bg : (emitGroup s).bg = nextGroup s := rfl
@[simp] theorem emitGroup_xempty : (emitGroup s).xempty = false := rfl
@[simp] theorem emitGroup_symI : (emitGroup s).symI = s.symI := rfl
@[simp] theorem emitGroup_symQ : (emitGroup s).symQ = s.symQ := rfl
@[simp] theorem emitGroup_fault : (emitGroup s).fault = s.fault := rfl
@[simp] theorem emitGroup_finfo : (emitGroup s).finfo = s.finfo := rfl
@[simp] theorem emitGroup_fb : (emitGroup s).fb = fbWrite s.fb s.wptr.toNat (romEntry s.cfg s.scheme (nextGroup s)) := rfl
@[simp] theorem emitGroup_src : (emitGroup s).src = s.src := rfl
@[simp] theorem emitGroup_owner : (emitGroup s).owner = s.owner := rfl
@[simp] theorem emitGroup_inputs : (emitGroup s).inputs = s.inputs := rfl
@[simp] theorem emitGroup_sinkData : (emitGroup s).sinkData = s.sinkData := rfl
@[simp] theorem emitGroup_draws : (emitGroup s).draws = s.draws := rfl

end emitGroup

end Sys2Proof.Machine
end

