-- ==== Sys2Proof/Laws/Emit.lean ====
section
/-! SUPPORT. What `emit_byte` and the loops of BUILD do (42_frame_packer.md R171), said once. -/

namespace Sys2Proof.Machine

/-- The frame buffer after the symbols `xs` have been written to the slots from `n` on. -/
def fillSlots (m : Memory) (n : Nat) : List Symbol → Memory
  | [] => m
  | x :: xs => fillSlots (fbWrite m n x) (n + 1) xs

theorem fillSlots_append (m : Memory) (n : Nat) (xs ys : List Symbol) :
    fillSlots m n (xs ++ ys) = fillSlots (fillSlots m n xs) (n + xs.length) ys := by
  induction xs generalizing m n with
  | nil => rfl
  | cons x xs ih =>
    rw [List.cons_append, fillSlots, ih, fillSlots, List.length_cons, show n + 1 + xs.length = n + (xs.length + 1) by omega]

theorem fillSlots_wf {m : Memory} (h : m.wf) (n : Nat) (xs : List Symbol) : (fillSlots m n xs).wf := by
  induction xs generalizing m n with
  | nil => exact h
  | cons x xs ih => exact ih (fbWrite_wf h _ _) _

theorem read_fillSlots_other (m : Memory) (n : Nat) (xs : List Symbol) {a : Nat}
    (h : a < 4 * n ∨ 4 * (n + xs.length) ≤ a) : (fillSlots m n xs).read a = m.read a := by
  induction xs generalizing m n with
  | nil => rfl
  | cons x xs ih =>
    simp only [List.length_cons] at h
    rw [fillSlots, ih _ _ (by omega), read_fbWrite_other _ _ _ (by omega)]

/-- Every slot of a filled run holds its symbol. -/
theorem memRead_fillSlots (m : Memory) (n : Nat) (xs : List Symbol) {k : Nat} (h : k < xs.length) :
    memRead (fillSlots m n xs) (slotAddr (n + k)) 4 = some (symbolWord xs[k]) := by
  induction xs generalizing m n k with
  | nil => simp at h
  | cons x xs ih =>
    cases k with
    | zero =>
      rw [fillSlots, Nat.add_zero, List.getElem_cons_zero, ← memRead_fbWrite_same m n x]
      refine memRead_congr fun a h1 h2 => read_fillSlots_other _ _ _ (.inl ?_)
      simp only [slotAddr_eq] at h1 h2
      omega
    | succ k =>
      have := ih (fbWrite m n x) (n + 1) (k := k) (by simpa using h)
      rwa [show n + 1 + k = n + (k + 1) by omega] at this

/-- Every byte of a filled run is listed. -/
theorem read_fillSlots_isSome (m : Memory) (n : Nat) (xs : List Symbol) {a : Nat}
    (h1 : 4 * n ≤ a) (h2 : a < 4 * (n + xs.length)) : ((fillSlots m n xs).read a).isSome := by
  induction xs generalizing m n with
  | nil => simp at h2; omega
  | cons x xs ih =>
    rw [fillSlots]
    by_cases h : a < 4 * (n + 1)
    · rw [read_fillSlots_other _ _ _ (.inl h), read_fbWrite_inside _ _ _ h1 (by omega)]
      rfl
    · exact ih _ _ (by omega) (by simp only [List.length_cons] at h2; omega)

theorem mem_fillSlots {m : Memory} {n : Nat} {xs : List Symbol} {c : Host.Cell}
    (h : c ∈ fillSlots m n xs) : (4 * n ≤ c.1 ∧ c.1 < 4 * (n + xs.length)) ∨ c ∈ m := by
  induction xs generalizing m n with
  | nil => exact .inr h
  | cons x xs ih =>
    obtain h | h := ih h
    · exact .inl (by simp only [List.length_cons]; omega)
    · exact (mem_fbWrite h).imp (fun e => by simp only [List.length_cons]; omega) id

/-! ### One byte -/

/-- The extractor after a byte has gone through it: the byte, its last group, nothing left (R172). -/
def extractorAfter (b : Byte) (s : State) : State :=
  { s with xbyte := b, xw := s.scheme, xrem := 0#3, xempty := false, bg := shiftMask s.scheme b 0 }

/-- `emit_byte` (R171), said once: the byte's groups through the table into the next slots. -/
theorem emitByte_eq (b : Byte) (s : State) (h : s.wptr.toNat + 4 < 2 ^ 32) :
    emitByte b s =
      { extractorAfter b s with
        fb := fillSlots s.fb s.wptr.toNat ((byteGroups s.scheme b).map (romEntry s.cfg s.scheme))
        wptr := s.wptr + BitVec.ofNat 32 (groupsPerByte s.scheme) } := by
  have e1 : (s.wptr + 1#32).toNat = s.wptr.toNat + 1 := by
    rw [BitVec.toNat_add, Nat.mod_eq_of_lt] <;> simp; omega
  have e2 : (s.wptr + 1#32 + 1#32).toNat = s.wptr.toNat + 2 := by
    rw [BitVec.toNat_add, e1, Nat.mod_eq_of_lt] <;> simp; omega
  have e3 : (s.wptr + 1#32 + 1#32 + 1#32).toNat = s.wptr.toNat + 3 := by
    rw [BitVec.toNat_add, e2, Nat.mod_eq_of_lt] <;> simp; omega
  have a2 : s.wptr + 1#32 + 1#32 = s.wptr + 2#32 := by rw [BitVec.add_assoc]; rfl
  have a4 : s.wptr + 1#32 + 1#32 + 1#32 + 1#32 = s.wptr + 4#32 := by
    rw [BitVec.add_assoc, BitVec.add_assoc, BitVec.add_assoc]; rfl
  cases hs : s.scheme
  · simp only [emitByte, hs, groupsPerByte_qpsk, emitGroups, emitGroup, putSymbol, takeGroup,
      nextGroup, loadByte, extractorAfter, byteGroups_qpsk, List.map, fillSlots, e1, e2, e3, a4]
    rfl
  · simp only [emitByte, hs, groupsPerByte_qam16, emitGroups, emitGroup, putSymbol, takeGroup,
      nextGroup, loadByte, extractorAfter, byteGroups_qam16, List.map, fillSlots, e1, a2]
    rfl

/-! ### Bytes, bursts, the payload loop -/

/-- A register of the extractor after the bytes `bs` have gone through it: set by the last of them,
`old` if there is none. -/
def lastSets {α : Type} (bs : List Byte) (old : α) (f : Byte → α) : α := (bs.getLast?.map f).getD old

@[simp] theorem lastSets_nil {α : Type} (old : α) (f : Byte → α) : lastSets [] old f = old := rfl

theorem lastSets_append {α : Type} (x y : List Byte) (old : α) (f : Byte → α) :
    lastSets y (lastSets x old f) f = lastSets (x ++ y) old f := by
  rcases List.eq_nil_or_concat y with rfl | ⟨ys, b, rfl⟩
  · simp
  · simp [lastSets, List.getLast?_append]

@[simp] theorem lastSets_singleton {α : Type} (b : Byte) (old : α) (f : Byte → α) :
    lastSets [b] old f = f b := rfl

theorem lastSets_of_ne_nil {α : Type} {bs : List Byte} (h : bs ≠ []) (old : α) (f : Byte → α) :
    lastSets bs old f = f (bs.getLast h) := by
  simp [lastSets, List.getLast?_eq_some_getLast h]

/-- The extractor after the bytes `bs` have gone through it. -/
def extractorAfterAll (bs : List Byte) (s : State) : State :=
  { s with
    xbyte := lastSets bs s.xbyte id
    xw := lastSets bs s.xw fun _ => s.scheme
    xrem := lastSets bs s.xrem fun _ => 0#3
    xempty := lastSets bs s.xempty fun _ => false
    bg := lastSets bs s.bg fun b => shiftMask s.scheme b 0 }

/-- A state after the source bytes `data` have been emitted and counted, the source being `src`. -/
def afterPayload (data : List Byte) (src : Source) (s : State) : State :=
  { extractorAfterAll data s with
    fb := fillSlots s.fb s.wptr.toNat ((groups s.scheme data).map (romEntry s.cfg s.scheme))
    wptr := s.wptr + BitVec.ofNat 32 (groupsPerByte s.scheme * data.length)
    bytes := s.bytes + BitVec.ofNat 32 data.length
    src := src }

theorem afterPayload_append (x y : List Byte) (r r' : Source) (s : State)
    (h : s.wptr.toNat + groupsPerByte s.scheme * x.length < 2 ^ 32) :
    afterPayload y r' (afterPayload x r s) = afterPayload (x ++ y) r' s := by
  have hw : (s.wptr + BitVec.ofNat 32 (groupsPerByte s.scheme * x.length)).toNat =
      s.wptr.toNat + groupsPerByte s.scheme * x.length := by
    rw [BitVec.toNat_add, BitVec.toNat_ofNat, Nat.add_mod_mod, Nat.mod_eq_of_lt h]
  simp only [afterPayload, extractorAfterAll, lastSets_append, hw, groups_append, List.map_append,
    fillSlots_append, List.length_map, groups_length_eq, List.length_append, BitVec.ofNat_add,
    Nat.mul_add, BitVec.add_assoc]

theorem emitBytes_eq (bs : List Byte) (s : State) (h : s.wptr.toNat + 4 * bs.length < 2 ^ 32) :
    emitBytes bs s =
      { extractorAfterAll bs s with
        fb := fillSlots s.fb s.wptr.toNat ((groups s.scheme bs).map (romEntry s.cfg s.scheme))
        wptr := s.wptr + BitVec.ofNat 32 (groupsPerByte s.scheme * bs.length) } := by
  induction bs generalizing s with
  | nil => simp [emitBytes, extractorAfterAll, fillSlots]
  | cons b bs ih =>
    have hg := groupsPerByte_le s.scheme
    simp only [List.length_cons] at h
    have hw : (s.wptr + BitVec.ofNat 32 (groupsPerByte s.scheme)).toNat =
        s.wptr.toNat + groupsPerByte s.scheme := by
      rw [BitVec.toNat_add, BitVec.toNat_ofNat, Nat.add_mod_mod, Nat.mod_eq_of_lt (by omega)]
    rw [emitBytes, emitByte_eq _ _ (by omega), ih _ (by simp only [hw]; omega)]
    have hl : ∀ {α : Type} (old : α) (f : Byte → α), lastSets bs (f b) f = lastSets (b :: bs) old f :=
      fun old f => by rw [← List.singleton_append, ← lastSets_append, lastSets_singleton]
    simp only [extractorAfter, extractorAfterAll, hw, groups_cons, List.map_append, fillSlots_append,
      List.length_map, byteGroups_length, List.length_cons, Nat.mul_add, Nat.mul_one,
      BitVec.ofNat_add, BitVec.add_assoc,
      BitVec.add_comm (BitVec.ofNat 32 (groupsPerByte s.scheme)),
      ← hl s.xbyte id, ← hl s.xw (fun _ => s.scheme), ← hl s.xrem (fun _ => 0#3),
      ← hl s.xempty (fun _ => false), ← hl s.bg (fun c => shiftMask s.scheme c 0), id]

/-- The burst's data. -/
def burstData (s : State) : List Byte := s.src.rest.take (s.src.readCount (burstSize s))

theorem burstData_length (s : State) : (burstData s).length = s.src.readCount (burstSize s) :=
  (srcRead_spec s.src (burstSize s)).2.1

theorem burst_eq (s : State) (h : s.wptr.toNat + 4 * (burstData s).length < 2 ^ 32) :
    burst s = afterPayload (burstData s) (s.src.afterRead (burstSize s)) s := by
  change { emitBytes (burstData s) { s with src := s.src.afterRead (burstSize s) } with
    bytes := (emitBytes (burstData s) { s with src := s.src.afterRead (burstSize s) }).bytes +
      BitVec.ofNat 32 (burstData s).length } = _
  rw [emitBytes_eq _ { s with src := s.src.afterRead (burstSize s) } h]
  rfl

end Sys2Proof.Machine
end

