-- ==== Sys2Proof/Laws/Build.lean ====
section
/-! SUPPORT. What the payload loop, the padding loop and BUILD as a whole do, whatever the source returns (42_frame_packer.md R165 to R173). -/

namespace Sys2Proof.Machine

@[simp] theorem afterPayload_nil (s : State) : afterPayload [] s.src s = s := by
  simp [afterPayload, extractorAfterAll, fillSlots]

@[simp] theorem afterPayload_cfg (d : List Byte) (r : Source) (s : State) : (afterPayload d r s).cfg = s.cfg := rfl
@[simp] theorem afterPayload_scheme (d : List Byte) (r : Source) (s : State) : (afterPayload d r s).scheme = s.scheme := rfl
@[simp] theorem afterPayload_src (d : List Byte) (r : Source) (s : State) : (afterPayload d r s).src = r := rfl

theorem afterPayload_wptr (d : List Byte) (r : Source) (s : State)
    (h : s.wptr.toNat + groupsPerByte s.scheme * d.length < 2 ^ 32) :
    (afterPayload d r s).wptr.toNat = s.wptr.toNat + groupsPerByte s.scheme * d.length := by
  simp only [afterPayload]
  rw [BitVec.toNat_add, BitVec.toNat_ofNat, Nat.add_mod_mod, Nat.mod_eq_of_lt h]

theorem need_eq {s : State} {k : Nat} (h : s.wptr.toNat + groupsPerByte s.scheme * k = s.cfg.cap) :
    need s = k := by
  rw [need, ← h, Nat.add_sub_cancel_left, Nat.mul_div_cancel_left _ (groupsPerByte_pos _)]

/-- The payload loop (R165, R166), whatever the source returns: it emits and counts the next bytes of
the source, `data`, and no others. -/
theorem payload_spec (fuel : Nat) (s : State) (k : Nat)
    (hk : s.wptr.toNat + groupsPerByte s.scheme * k = s.cfg.cap) :
    ∃ data r short, payload fuel s = (afterPayload data r s, short) ∧
      data = s.src.rest.take data.length ∧ data.length ≤ s.src.rest.length ∧
      r.bytes = s.src.bytes ∧ r.cur = s.src.cur + data.length ∧
      data.length ≤ k ∧ (short = true → data.length < k) ∧
      (short = false → k ≤ fuel → data.length = k) ∧
      (s.src.contract → r.contract ∧ (short = true → data.length = s.src.rest.length)) := by
  induction fuel generalizing s k with
  | zero =>
    refine ⟨[], s.src, false, by simp [payload], by simp, by simp, rfl, by simp, by simp, by simp, ?_, ?_⟩
    · intro _ h
      simp only [List.length_nil]
      omega
    · intro h
      exact ⟨h, by simp⟩
  | succ fuel ih =>
    have hcap := s.cfg.ok.2.2.1
    have hg4 := groupsPerByte_le s.scheme
    have hg0 := groupsPerByte_pos s.scheme
    have hneed := need_eq hk
    by_cases hlt : s.wptr.toNat < s.cfg.cap
    · have hk0 : 0 < k := by
        rcases Nat.eq_zero_or_pos k with rfl | h
        · simp at hk; omega
        · exact h
      have hch := s.cfg.ok.2.2.2.1
      have hbs : burstSize s = min s.cfg.chunk k := by rw [burstSize, hneed]
      have hm := s.src.readCount_le (burstSize s)
      have hdl := burstData_length s
      have hmul : groupsPerByte s.scheme * (burstData s).length ≤ groupsPerByte s.scheme * k :=
        Nat.mul_le_mul_left _ (by omega)
      have hk4 : 2 * k ≤ groupsPerByte s.scheme * k := Nat.mul_le_mul_right _ (groupsPerByte_ge _)
      have hb := burst_eq s (by omega)
      have hr : (s.src.afterRead (burstSize s)).cur = s.src.cur + (burstData s).length := by
        rw [hdl]; rfl
      by_cases hshort : burstShort s = true
      · refine ⟨burstData s, s.src.afterRead (burstSize s), true, ?_, ?_, ?_, rfl, hr, by omega, ?_, by simp, ?_⟩
        · rw [payload, if_pos hlt, if_pos hshort, hb]
        · rw [hdl]; rfl
        · omega
        · simp only [burstShort, decide_eq_true_eq] at hshort
          omega
        · intro hc
          refine ⟨by simp [Source.contract, Source.afterRead, show s.src.limits = [] from hc], fun _ => ?_⟩
          simp only [burstShort, decide_eq_true_eq] at hshort
          have := s.src.readCount_contract hc (burstSize s)
          omega
      · simp only [burstShort, decide_eq_true_eq] at hshort
        have hl : (burstData s).length = min s.cfg.chunk k := by omega
        have hkm : groupsPerByte s.scheme * k = groupsPerByte s.scheme * (burstData s).length +
            groupsPerByte s.scheme * (k - (burstData s).length) := by
          rw [← Nat.mul_add, Nat.add_sub_cancel' (by omega)]
        obtain ⟨data, r, short, he, h1, h1', h2, h3, h4, h5, h6, h7⟩ :=
          ih (burst s) (k - (burstData s).length) (by
            rw [hb, afterPayload_wptr _ _ _ (by omega), afterPayload_scheme, afterPayload_cfg]
            omega)
        rw [hb, afterPayload_append _ _ _ _ _ (by omega)] at he
        rw [hb, afterPayload_src, Source.rest_afterRead, ← hdl] at h1 h1' h7
        rw [hb, afterPayload_src] at h2 h3
        rw [List.length_drop] at h1'
        refine ⟨burstData s ++ data, r, short, ?_, ?_, ?_, h2, ?_, ?_, ?_, ?_, ?_⟩
        · rw [payload, if_pos hlt, if_neg (by simp [burstShort]; omega), hb, he]
        · rw [List.length_append, List.take_add, ← h1]
          congr 1
          rw [hdl]; rfl
        · rw [List.length_append]; omega
        · rw [h3, hr, List.length_append]; omega
        · rw [List.length_append]; omega
        · rw [List.length_append]; intro h; have := h5 h; omega
        · rw [List.length_append]; intro h h'; have := h6 h (by omega); omega
        · intro hc
          obtain ⟨c1, c2⟩ := h7 (by
            simp [Source.contract, Source.afterRead, show s.src.limits = [] from hc])
          refine ⟨c1, fun h => ?_⟩
          have := c2 h
          rw [List.length_drop] at this
          rw [List.length_append]
          omega
    · have hk0 : k = 0 := by
        rcases Nat.eq_zero_or_pos k with h | h
        · exact h
        · have := Nat.mul_le_mul_left (groupsPerByte s.scheme) h
          omega
      subst hk0
      refine ⟨[], s.src, false, by simp [payload, hlt], by simp, by simp, rfl, by simp, by simp, by simp, by simp, ?_⟩
      intro h
      exact ⟨h, by simp⟩

/-- The padding loop (R167): pad symbols to the next `n` slots, nothing else. -/
theorem pad_eq (n : Nat) (s : State) (h : s.wptr.toNat + n < 2 ^ 32) :
    pad n s =
      { s with
        fb := fillSlots s.fb s.wptr.toNat (List.replicate n (padSymbol s.cfg s.scheme))
        wptr := s.wptr + BitVec.ofNat 32 n } := by
  induction n generalizing s with
  | zero => simp [pad, fillSlots]
  | succ n ih =>
    have hw : (s.wptr + 1#32).toNat = s.wptr.toNat + 1 := by
      rw [BitVec.toNat_add, Nat.mod_eq_of_lt] <;> simp; omega
    rw [pad, ih _ (by simp only [putSymbol_wptr, hw]; omega)]
    simp only [putSymbol, hw, List.replicate_succ, fillSlots, BitVec.ofNat_add, BitVec.add_assoc,
      BitVec.add_comm (BitVec.ofNat 32 n)]

theorem headerBytes_length : headerBytes.length = 20 := rfl

/-- BUILD's header (R162): the 20 header bytes through the extractor into the first slots. -/
theorem emitHeader_eq (s : State) :
    emitHeader s =
      { s with
        done := false
        bytes := 0#32
        wptr := BitVec.ofNat 32 (groupsPerByte s.scheme * 20)
        xbyte := 0xF7#8
        xw := s.scheme
        xrem := 0#3
        xempty := false
        bg := shiftMask s.scheme 0xF7#8 0
        fb := fillSlots s.fb 0 ((groups s.scheme headerBytes).map (romEntry s.cfg s.scheme))
        owner := .block } := by
  rw [emitHeader, emitBytes_eq _ _ (by simp [headerBytes_length])]
  simp [extractorAfterAll, lastSets, headerBytes, startFrame]

/-- The whole of BUILD (R171), whatever the source returns: with `p` the payload bytes received, the
frame buffer, the registers, the flags and the source. Everything else is as it was. -/
theorem buildFrame_spec (s : State) :
    ∃ (p : List Byte) (r : Source) (short : Bool),
      buildFrame s =
        { s with
          exh := short || srcEnd r
          done := true
          bytes := BitVec.ofNat 32 p.length
          wptr := BitVec.ofNat 32 s.cfg.cap
          xbyte := (p.getLast?).getD 0xF7#8
          xw := s.scheme
          xrem := 0#3
          xempty := false
          bg := shiftMask s.scheme ((p.getLast?).getD 0xF7#8) 0
          fb := fillSlots s.fb 0 (frameSymbols s.cfg s.scheme p)
          src := r
          owner := .sink } ∧
      p = s.src.rest.take p.length ∧ p.length ≤ s.src.rest.length ∧
      r.bytes = s.src.bytes ∧ r.cur = s.src.cur + p.length ∧
      p.length ≤ payBytes s.cfg s.scheme ∧
      (short = true → p.length < payBytes s.cfg s.scheme) ∧
      (short = false → p.length = payBytes s.cfg s.scheme) ∧
      (s.src.contract → r.contract ∧ (short = true → p.length = s.src.rest.length)) := by
  have hcap := s.cfg.ok.2.2.1
  have hg4 := groupsPerByte_le s.scheme
  have hg0 := groupsPerByte_pos s.scheme
  have hsum := header_add_payBytes s.cfg s.scheme
  have hP := Nat.le_mul_of_pos_left (payBytes s.cfg s.scheme) hg0
  have hw : (emitHeader s).wptr.toNat = groupsPerByte s.scheme * 20 := by
    rw [emitHeader_eq]
    simp only [BitVec.toNat_ofNat]
    omega
  have hsc : (emitHeader s).scheme = s.scheme := by rw [emitHeader_eq]
  have hcf : (emitHeader s).cfg = s.cfg := by rw [emitHeader_eq]
  have hsr : (emitHeader s).src = s.src := by rw [emitHeader_eq]
  obtain ⟨p, r, short, he, h1, h1', h2, h3, h4, h5, h6, h7⟩ :=
    payload_spec s.cfg.cap (emitHeader s) (payBytes s.cfg s.scheme) (by rw [hw, hsc, hcf]; exact hsum)
  rw [hsr] at h1 h1' h2 h3 h7
  have hmul := Nat.mul_le_mul_left (groupsPerByte s.scheme) h4
  have hpw := afterPayload_wptr p r (emitHeader s) (by rw [hw, hsc]; omega)
  rw [hw, hsc] at hpw
  refine ⟨p, r, short, ?_, h1, h1', h2, h3, h4, h5, fun h => h6 h (by omega), h7⟩
  rw [buildFrame, he]
  have hmulP := payBytes_mul s.cfg s.scheme
  have hhdr := headerGroups_eq s.scheme
  have hlen : (groups s.scheme headerBytes).length = groupsPerByte s.scheme * 20 := groups_length_eq _ _
  have hpay : payCap s.cfg s.scheme = s.cfg.cap - groupsPerByte s.scheme * 20 := by rw [payCap, hhdr]
  have hbg : lastSets p (shiftMask s.scheme 0xF7#8 0) (fun b => shiftMask s.scheme b 0) =
      shiftMask s.scheme (p.getLast?.getD 0xF7#8) 0 := by
    unfold lastSets; cases p.getLast? <;> rfl
  have hconst : ∀ {α : Type} (a : α), lastSets p a (fun _ => a) = a := by
    intro α a; unfold lastSets; cases p.getLast? <;> rfl
  have hid : lastSets p 0xF7#8 id = p.getLast?.getD 0xF7#8 := by
    unfold lastSets; cases p.getLast? <;> rfl
  have hnat : groupsPerByte s.scheme * 20 % 2 ^ 32 = groupsPerByte s.scheme * 20 := Nat.mod_eq_of_lt (by omega)
  cases short with
  | true =>
    rw [finishFrame, if_pos rfl, padRest, hpw, afterPayload_cfg, hcf,
      pad_eq _ _ (by rw [hpw]; omega), hpw]
    rw [emitHeader_eq] at *
    simp only [afterPayload, extractorAfterAll, endFrame, hconst, hid, hbg, frameSymbols,
      groups_append, List.map_append, List.append_assoc, fillSlots_append, List.length_map, hlen,
      groups_length_eq, Nat.zero_add, hpay, ← BitVec.ofNat_add, Bool.true_or, BitVec.toNat_ofNat, hnat]
    congr 1
    · congr 1; omega
    · congr 2; omega
  | false =>
    have := h6 rfl (by omega)
    rw [finishFrame, if_neg (by simp)]
    rw [emitHeader_eq] at *
    simp only [afterPayload, extractorAfterAll, endFrame, hconst, hid, hbg, frameSymbols,
      groups_append, List.map_append, List.append_assoc, fillSlots_append, List.length_map, hlen,
      Nat.zero_add, hpay, ← BitVec.ofNat_add, Bool.false_or, BitVec.toNat_ofNat, hnat, this, hmulP,
      Nat.sub_self, List.replicate_zero, fillSlots]
    rw [Nat.add_sub_cancel' (by omega)]

end Sys2Proof.Machine
end

