-- ==== Sys2Proof/Laws/Exec.lean ====
section
/-! SUPPORT. What executing a command, taking a word from the port and one step can do, said once (60_exceptions.md R225). -/

namespace Sys2Proof.Machine

/-- What each command does when it is legal. -/
def effectOf : Instr → State → State
  | .nop, s => s
  | .lookup sel bg, s => lookupEffect sel bg s
  | .xload sel b, s => loadByte sel b s
  | .xnext, s => nextEffect s
  | .openTx sel, s => openEffect sel s
  | .build, s => buildFrame s
  | .closeTx, s => closeEffect s

/-- Issuing a command other than BUILD and CLOSE leaves the buffer whose it is (R73). -/
theorem handBack_eq_self {i : Instr} (hb : i ≠ .build) (hc : i ≠ .closeTx) (s : State) :
    handBack i s = s := by
  cases i <;> first | rfl | exact absurd rfl hb | exact absurd rfl hc

/-- Every command answers a next state, in the frame of R225. -/
theorem exec_eq (i : Instr) (s : State) : exec i s = .next (whenLegal i s (effectOf i s)) := by
  cases i <;> rfl

theorem exec_of_halt {s : State} (h : s.mode = .halt) (i : Instr) : exec i s = .next (handBack i s) := by
  rw [exec_eq, whenLegal, if_pos h]

theorem exec_of_illegal {i : Instr} {s : State} (h : s.mode ≠ .halt) (hl : legal i s.mode s.exh = false) :
    exec i s = .next (raiseFault .seq (encode i) (handBack i s)) := by
  rw [exec_eq, whenLegal, if_neg h, if_neg (by simp [hl])]

theorem exec_of_legal {i : Instr} {s : State} (h : s.mode ≠ .halt) (hl : legal i s.mode s.exh = true) :
    exec i s = .next (effectOf i s) := by
  rw [exec_eq, whenLegal, if_neg h, if_pos hl]

/-- The inversion of `exec`: ignored in HALT, SEQ, or the command's effect. -/
theorem exec_cases {i : Instr} {s t : State} (h : exec i s = .next t) :
    (s.mode = .halt ∧ t = handBack i s) ∨
    (s.mode ≠ .halt ∧ legal i s.mode s.exh = false ∧ t = raiseFault .seq (encode i) (handBack i s)) ∨
    (s.mode ≠ .halt ∧ legal i s.mode s.exh = true ∧ t = effectOf i s) := by
  rw [exec_eq] at h
  injection h with h
  subst h
  unfold whenLegal
  split
  · next h => exact .inl ⟨h, rfl⟩
  · next h =>
    split
    · next hl => exact .inr (.inr ⟨h, hl, rfl⟩)
    · next hl => exact .inr (.inl ⟨h, by simpa using hl, rfl⟩)

/-- The two outcomes of a legal LOOKUP (R129): the entry, or BADBG. -/
theorem lookupEffect_cases (sel : Scheme) (bg : Byte) (s : State) :
    (bg.toNat < tableSize sel ∧ ∃ x, symbolAt s.cfg sel bg.toNat = some x ∧
      lookupEffect sel bg s = { s with symI := x.i, symQ := x.q }) ∨
    (tableSize sel ≤ bg.toNat ∧
      lookupEffect sel bg s = raiseFault .badbg (encode (.lookup sel bg)) s) := by
  by_cases h : bg.toNat < tableSize sel
  · exact .inl ⟨h, _, symbolAt_of_lt _ _ h, by rw [lookupEffect, symbolAt_of_lt _ _ h]⟩
  · exact .inr ⟨by omega, by rw [lookupEffect, (symbolAt_eq_none _ _ _).2 (by omega)]⟩

/-- What a legal command does to the fault registers and to `MODE` (60_exceptions.md R220, R221): it
raises nothing, or it is a LOOKUP out of range, which raises BADBG. -/
theorem effectOf_cases {i : Instr} {s : State} (h : s.mode ≠ .halt) :
    ((effectOf i s).fault = s.fault ∧ (effectOf i s).finfo = s.finfo ∧ (effectOf i s).mode ≠ .halt ∧
      ∀ sel bg, i = .lookup sel bg → bg.toNat < tableSize sel) ∨
    (∃ sel bg, i = .lookup sel bg ∧ tableSize sel ≤ bg.toNat ∧
      effectOf i s = raiseFault .badbg (encode i) s) := by
  cases i with
  | lookup sel bg =>
    obtain ⟨hb, x, -, he⟩ | ⟨hb, he⟩ := lookupEffect_cases sel bg s
    · left
      simp only [effectOf, he, true_and]
      exact ⟨h, by rintro _ _ ⟨⟩; exact hb⟩
    · exact .inr ⟨sel, bg, rfl, hb, he⟩
  | xnext =>
    left
    simp only [effectOf, nextEffect]
    split <;> exact ⟨rfl, rfl, h, by simp⟩
  | build =>
    obtain ⟨p, r, short, he, -⟩ := buildFrame_spec s
    left
    simp only [effectOf, he, true_and]
    exact ⟨h, by simp⟩
  | openTx sel => exact .inl ⟨rfl, rfl, by simp [effectOf, openEffect], by simp⟩
  | closeTx => exact .inl ⟨rfl, rfl, by simp [effectOf, closeEffect], by simp⟩
  | _ => exact .inl ⟨rfl, rfl, h, by simp⟩

/-- The inversion of a command word taken from the port (R225). -/
theorem issueCommand_cases {c : CmdWord} {s t : State} (h : issueCommand c s = .next t) :
    (∃ i, decode c = .ok i ∧ exec i s = .next t) ∨
    (∃ e, decode c = .error e ∧
      ((s.mode = .halt ∧ t = s) ∨ (s.mode ≠ .halt ∧ t = raiseFault .illcmd c s))) := by
  unfold issueCommand at h
  split at h
  · next i hi => exact .inl ⟨i, hi, h⟩
  · next e he =>
    refine .inr ⟨e, he, ?_⟩
    injection h with h
    subst h
    unfold illegalCommand
    split
    · next hm => exact .inl ⟨hm, rfl⟩
    · next hm => exact .inr ⟨hm, rfl⟩

/-- The inversion of a sink read that is not refused. -/
theorem sinkRead_cases {a n : Nat} {s t : State} (h : sinkRead a n s = .next t) :
    (∃ v, sinkValue s a n = some v ∧ t = { s with sinkData := v }) ∨
    (sinkValue s a n = none ∧ t = { s with sinkData := freeSinkValue s.draws n, draws := s.draws + 1 }) := by
  unfold sinkRead at h
  split at h
  · split at h
    · next v hv => exact .inl ⟨v, hv, by injection h with h; exact h.symm⟩
    · next hv => exact .inr ⟨hv, by injection h with h; exact h.symm⟩
  · cases h

/-- The inversion of the binding of a source that is not refused. -/
theorem bindSource_cases {src : Source} {s t : State} (h : bindSource src s = .next t) :
    src.wf ∧ t = { s with src := src } := by
  unfold bindSource at h
  split at h
  · next hw => exact ⟨hw, by injection h with h; exact h.symm⟩
  · cases h

/-- The inversion of a step: it waits, or it takes the oldest input. -/
theorem step_cases {s t : State} (h : step s = .next t) :
    (s.inputs = [] ∧ t = s) ∨
    (∃ x later, s.inputs = x :: later ∧ runInput x { s with inputs := later } = .next t) := by
  unfold step at h
  split at h
  · next hi => exact .inl ⟨hi, by injection h with h; exact h.symm⟩
  · next x later hi => exact .inr ⟨x, later, hi, h⟩

/-- A source left by an abandoned BUILD (70_reset_and_hazards.md R252): the same bytes, the cursor between
its old value and that plus `PAYBYTES(s)`, inside the source. -/
theorem abandonedSource_spec (advance reads : Nat) (s : State) :
    (abandonedSource advance reads s).bytes = s.src.bytes ∧
    ∃ n, (abandonedSource advance reads s).cur = s.src.cur + n ∧
      n ≤ payBytes s.cfg s.scheme ∧ n ≤ s.src.rest.length := by
  have := Nat.mod_lt advance (Nat.succ_pos (min (payBytes s.cfg s.scheme) s.src.rest.length))
  rw [Nat.succ_eq_add_one] at this
  exact ⟨rfl, _, rfl, by omega, by omega⟩

/-- Every position in that range is some abandoned BUILD's. -/
theorem abandonedSource_surjective (s : State) (reads : Nat) {n : Nat}
    (hp : n ≤ payBytes s.cfg s.scheme) (hr : n ≤ s.src.rest.length) :
    ∃ advance, (abandonedSource advance reads s).cur = s.src.cur + n :=
  ⟨n, congrArg (s.src.cur + ·) (Nat.mod_eq_of_lt (by omega))⟩

end Sys2Proof.Machine
end

