-- ==== Sys2Proof/Laws/PerInstr.lean ====
section
/-! SUPPORT. Statements about every command as syntax, one lemma per constructor of Instr. -/

namespace Sys2Proof.Laws.RowWords

/-- The command's word carries its row's pattern: `C & mask = match` (30_encoding.md R93). -/
def Statement (i : Instr) : Prop := encode i &&& rowMask i = rowMatch i

theorem nop : Statement .nop := by unfold Statement; decide

theorem lookup (sel : Scheme) (bg : Byte) : Statement (.lookup sel bg) := by
  cases sel <;> revert bg <;> unfold Statement <;> decide

theorem xload (sel : Scheme) (b : Byte) : Statement (.xload sel b) := by
  cases sel <;> revert b <;> unfold Statement <;> decide

theorem xnext : Statement .xnext := by unfold Statement; decide

theorem openTx (sel : Scheme) : Statement (.openTx sel) := by
  cases sel <;> unfold Statement <;> decide

theorem build : Statement .build := by unfold Statement; decide

theorem closeTx : Statement .closeTx := by unfold Statement; decide

end Sys2Proof.Laws.RowWords
end

