-- ==== Sys2Proof/Laws/Port.lean ====
section
/-! SUPPORT. What waits on the block's ports is no operand of any command: executing one commutes with replacing the inputs still to come (30_encoding.md R90, R95). -/

namespace Sys2Proof.Machine

/-- The state with other inputs still to come. -/
def withInputs (l : List Input) (s : State) : State := { s with inputs := l }

variable (l : List Input)

theorem emitGroups_withInputs (n : Nat) (s : State) :
    emitGroups n (withInputs l s) = withInputs l (emitGroups n s) := by
  induction n generalizing s with
  | zero => rfl
  | succ n ih => exact ih (emitGroup s)

theorem emitBytes_withInputs (bs : List Byte) (s : State) :
    emitBytes bs (withInputs l s) = withInputs l (emitBytes bs s) := by
  induction bs generalizing s with
  | nil => rfl
  | cons b bs ih =>
    rw [emitBytes, emitBytes, ← ih, emitByte, emitByte, ← emitGroups_withInputs]
    rfl

theorem burst_withInputs (s : State) : burst (withInputs l s) = withInputs l (burst s) := by
  have h := emitBytes_withInputs l (srcRead s.src (burstSize s)).1
    { s with src := (srcRead s.src (burstSize s)).2 }
  exact congrArg (fun t : State =>
    { t with bytes := t.bytes + BitVec.ofNat 32 (srcRead s.src (burstSize s)).1.length }) h

theorem payload_withInputs (fuel : Nat) (s : State) :
    payload fuel (withInputs l s) = (withInputs l (payload fuel s).1, (payload fuel s).2) := by
  induction fuel generalizing s with
  | zero => rfl
  | succ fuel ih =>
    rw [payload, payload, burst_withInputs, ih]
    show (if s.wptr.toNat < s.cfg.cap then _ else _) = _
    split
    · show (if burstShort s = true then _ else _) = _
      split <;> rfl
    · rfl

theorem pad_withInputs (n : Nat) (s : State) : pad n (withInputs l s) = withInputs l (pad n s) := by
  induction n generalizing s with
  | zero => rfl
  | succ n ih => exact ih (putSymbol (padSymbol s.cfg s.scheme) s)

theorem buildFrame_withInputs (s : State) :
    buildFrame (withInputs l s) = withInputs l (buildFrame s) := by
  have hh : emitHeader (withInputs l s) = withInputs l (emitHeader s) :=
    emitBytes_withInputs l headerBytes (startFrame s)
  have hp := payload_withInputs l s.cfg.cap (emitHeader s)
  have h : ∀ (t : State) (b : Bool),
      finishFrame (withInputs l t, b) = withInputs l (finishFrame (t, b)) := by
    intro t b
    cases b
    · rfl
    · exact congrArg (endFrame true) (pad_withInputs l (t.cfg.cap - t.wptr.toNat) t)
  rw [buildFrame, hh]
  exact (congrArg finishFrame hp).trans (h _ _)

/-- Executing a command: the inputs still to come pass through untouched. -/
theorem exec_withInputs {i : Instr} {s t : State} (h : exec i s = .next t) :
    exec i (withInputs l s) = .next (withInputs l t) := by
  rw [exec_eq] at h ⊢
  injection h with h
  subst h
  congr 1
  unfold whenLegal
  show (if s.mode = .halt then _ else if legal i s.mode s.exh = true then _ else _) = _
  split
  · rfl
  split
  · cases i with
    | lookup sel bg =>
      show lookupEffect sel bg (withInputs l s) = withInputs l (lookupEffect sel bg s)
      simp only [lookupEffect, show (withInputs l s).cfg = s.cfg from rfl]
      cases symbolAt s.cfg sel bg.toNat <;> rfl
    | xnext =>
      show nextEffect (withInputs l s) = withInputs l (nextEffect s)
      simp only [nextEffect, show (withInputs l s).xrem = s.xrem from rfl]
      by_cases h : s.xrem = 0#3
      · rw [if_pos h, if_pos h]; rfl
      · rw [if_neg h, if_neg h]; rfl
    | build => exact buildFrame_withInputs l s
    | _ => rfl
  · rfl

end Sys2Proof.Machine
end

