-- ==== Sys2Proof/Tests/Slice0.lean ====
section
/-! SUPPORT. The model's own tests, with expected values from spec/95_test_vectors.md, and a witness for the hypotheses of every statement. -/

namespace Sys2Proof.Machine

/-! ### The test configuration and small states -/

/-- The parameters `TESTCFG` of 95_test_vectors.md, `CAP = 88`, `CHUNK = 64000`. -/
def testParams : Params where
  cap := 88
  chunk := 64000
  qpskA := 1000
  qamA := 1000
  t16 := t16Gray

def testCfg : Config := { toParams := testParams, ok := by decide }

/-- Just after reset, TESTCFG. -/
def testIdle : State := { State.reset with cfg := testCfg }

/-- A transmission open on a source, nothing built yet. -/
def testActive (sel : Scheme) (bytes : List Byte) : State :=
  { testIdle with mode := .active, scheme := sel, src := { bytes := bytes, cur := 0, limits := [] } }

/-- HALT with BADBG recorded, as in vector M12. -/
def testHalt : State := { testIdle with mode := .halt, fault := .badbg, finfo := 0x1004#16 }

/-- The state an outcome goes on with. -/
def nextState : Host.Outcome State Fault Refusal → State
  | .next s => s
  | .fault _ => testIdle
  | .refused _ => testIdle

/-! ### Well-formedness: an ill-formed term for each check -/

/-- R104: a written `s` other than 0 and 1, and a written byte over 255, in each line that has one. -/
theorem test_wf_refuses_operands_out_of_range :
    (AsmLine.lookup 2 0).wf = false ∧ (AsmLine.lookup 0 256).wf = false ∧
    (AsmLine.xload 2 0).wf = false ∧ (AsmLine.xload 1 256).wf = false ∧
    (AsmLine.openTx 2).wf = false ∧ (AsmLine.lookupq 256).wf = false ∧
    (AsmLine.lookup16 256).wf = false ∧ (AsmLine.xbyte 2 0).wf = false ∧
    (AsmLine.xbyte 0 256).wf = false ∧ (AsmLine.sweep 2).wf = false := by decide

theorem test_wf_accepts_operands_in_range :
    (AsmLine.lookup 1 255).wf = true ∧ (AsmLine.xbyte 1 255).wf = true ∧ (AsmLine.sweep 1).wf = true ∧
    (Instr.lookup .qpsk 255#8).wf = true := by decide

/-- R7: one parameter set out of range for each clause. -/
theorem test_check_refuses_each_constraint :
    Config.check { testParams with cap := 90 } = none ∧
    Config.check { testParams with cap := 80 } = none ∧
    Config.check { testParams with cap := 2 ^ 30 + 4 } = none ∧
    Config.check { testParams with chunk := 0 } = none ∧
    Config.check { testParams with qpskA := 0 } = none ∧
    Config.check { testParams with qpskA := 32768 } = none ∧
    Config.check { testParams with qamA := 0 } = none ∧
    Config.check { testParams with qamA := 10923 } = none ∧
    Config.check { testParams with t16 := t16Gray.set 11 (.posOne, .negOne) } = none := by decide

theorem test_check_accepts_the_bounds :
    (Config.check { testParams with cap := 84, chunk := 1, qpskA := 1, qamA := 1 }).isSome ∧
    (Config.check { testParams with cap := 2 ^ 30, qpskA := 32767, qamA := 10922 }).isSome := by decide

/-- 10_state.md R44(a): a cursor past the end. -/
theorem test_source_cursor_past_end_refused :
    ¬ Source.wf { bytes := [0x1B#8], cur := 2, limits := [] } := by decide

/-! ### Decoding: words written out from the patterns of R93 -/

theorem test_decode_nop : decode 0b0000_000_0_00000000#16 = .ok .nop := by decide
theorem test_decode_lookup : decode 0b0001_000_1_00001011#16 = .ok (.lookup .qam16 11#8) := by decide
theorem test_decode_xload : decode 0b0010_000_0_00011011#16 = .ok (.xload .qpsk 0x1B#8) := by decide
theorem test_decode_xnext : decode 0b0011_000_0_00000000#16 = .ok .xnext := by decide
theorem test_decode_open : decode 0b0100_000_1_00000000#16 = .ok (.openTx .qam16) := by decide
theorem test_decode_build : decode 0b0101_000_0_00000000#16 = .ok .build := by decide
theorem test_decode_close : decode 0b0110_000_0_00000000#16 = .ok .closeTx := by decide

/-- Vectors 2.1, the words listed as illegal. -/
theorem test_decode_illegal :
    [0x7000#16, 0xF000#16, 0xFFFF#16, 0x0001#16, 0x0100#16, 0x0200#16, 0x1200#16, 0x1800#16, 0x3001#16,
      0x3100#16, 0x4001#16, 0x4180#16, 0x5100#16, 0x6001#16].all
      (fun c => (decode c).toOption.isNone) = true := by decide

theorem test_decodeTableWord : decodeTableWord 16 0x110B = some (.lookup .qam16 11#8) ∧
    decodeTableWord 16 0x7000 = none := by decide

/-! ### One step of each command -/

/-- NOP between two BUILDs leaves `DONE` as it was (R203). -/
theorem test_nop_keeps_done :
    (nextState (exec .nop { testActive .qpsk [] with done := true })).done = true := by decide

/-- Vectors 2.2: LOOKUP 0, 1 and, with the default table, LOOKUP 1, 12. -/
theorem test_lookup :
    (nextState (exec (.lookup .qpsk 1#8) testIdle)).symI = 0x03E8#16 ∧
    (nextState (exec (.lookup .qpsk 1#8) testIdle)).symQ = 0xFC18#16 ∧
    (nextState (exec (.lookup .qam16 12#8) testIdle)).symI = 0xF448#16 ∧
    (nextState (exec (.lookup .qam16 12#8) testIdle)).symQ = 0xFC18#16 := by decide

/-- Vector M10 with 2.2: LOOKUP 1, 16 in ACTIVE. -/
theorem test_lookup_badbg :
    let t := nextState (exec (.lookup .qam16 16#8) (testActive .qpsk []))
    t.fault = .badbg ∧ t.finfo = 0x1110#16 ∧ t.mode = .halt ∧ t.symI = 0#16 := by decide

/-- Trace X3: XLOAD 1, 0xA5 discards two groups and keeps `BG`. -/
theorem test_xload_restarts :
    let t := nextState (exec (.xload .qam16 0xA5#8)
      { testIdle with xbyte := 0x1B#8, xrem := 2#3, bg := 1#4, xempty := true })
    t.xbyte = 0xA5#8 ∧ t.xw = .qam16 ∧ t.xrem = 2#3 ∧ t.bg = 1#4 ∧ t.xempty = false := by decide

/-- Vector M4. -/
theorem test_xload_in_active_is_seq :
    let t := nextState (exec (.xload .qpsk 0x1B#8) (testActive .qpsk []))
    t.fault = .seq ∧ t.finfo = 0x201B#16 ∧ t.xbyte = 0#8 := by decide

/-- Trace X3: the first XNEXT after XLOAD 1, 0xA5. -/
theorem test_xnext_delivers :
    let t := nextState (exec .xnext { testIdle with xbyte := 0xA5#8, xw := .qam16, xrem := 2#3, bg := 1#4 })
    t.bg = 10#4 ∧ t.xrem = 1#3 ∧ t.xempty = false := by decide

/-- Trace X3: XNEXT straight after reset. -/
theorem test_xnext_exhausted :
    let t := nextState (exec .xnext testIdle)
    t.bg = 0#4 ∧ t.xrem = 0#3 ∧ t.xempty = true ∧ t.mode = .idle := by decide

/-- Vector M3: OPEN 1 in an open transmission. -/
theorem test_open_in_active_is_seq :
    let t := nextState (exec (.openTx .qam16) (testActive .qpsk []))
    t.fault = .seq ∧ t.finfo = 0x4100#16 ∧ t.scheme = .qpsk ∧ t.mode = .halt := by decide

/-- R201: OPEN clears the extractor and keeps `SYM_I`. -/
theorem test_open_clears :
    let t := nextState (exec (.openTx .qam16) { testIdle with xrem := 3#3, bg := 2#4, symI := 5#16 })
    t.mode = .active ∧ t.scheme = .qam16 ∧ t.xrem = 0#3 ∧ t.bg = 0#4 ∧ t.symI = 5#16 := by decide

set_option maxRecDepth 20000 in
/-- Vector F2: the registers after BUILD on the source 1B; vector M1: BUILD straight after reset. -/
theorem test_build_registers :
    (nextState (exec .build testIdle)).fault = .seq ∧ (nextState (exec .build testIdle)).finfo = 0x5000#16 ∧
    let t := nextState (exec .build (testActive .qpsk [0x1B#8]))
    t.bytes = 1#32 ∧ t.exh = true ∧ t.done = true ∧ t.wptr = 88#32 ∧ t.xbyte = 0x1B#8 ∧ t.bg = 3#4 ∧
    t.src.cur = 1 := by decide

set_option maxRecDepth 20000 in
/-- Vector F2: the payload slots, with the slots of the header taken as written; the byte view of slot 81. -/
theorem test_build_payload_slots :
    let t := finishFrame (payload 1 { testActive .qpsk [0x1B#8] with wptr := 80#32 })
    [80, 81, 82, 83, 84, 85, 86, 87].map (fun n => memRead t.fb (4 * n) 4) =
      [some 0x03E803E8#32, some 0xFC1803E8#32, some 0x03E8FC18#32, some 0xFC18FC18#32,
       some 0x03E803E8#32, some 0x03E803E8#32, some 0x03E803E8#32, some 0x03E803E8#32] ∧
    [324, 325, 326, 327].map t.fb.read = [some 0xE8#8, some 0x03#8, some 0x18#8, some 0xFC#8] := by decide +kernel

/-- Vector M6 with R73: BUILD after exhaustion keeps `DONE` and ends the sink's turn. -/
theorem test_build_after_exhaustion :
    let t := nextState (exec .build { testActive .qpsk [] with exh := true, done := true, owner := .sink })
    t.fault = .seq ∧ t.done = true ∧ t.exh = true ∧ t.owner = .block := by decide

/-- Vector M2: CLOSE straight after reset. -/
theorem test_close_in_idle_is_seq :
    let t := nextState (exec .closeTx testIdle)
    t.fault = .seq ∧ t.finfo = 0x6000#16 ∧ t.mode = .halt := by decide

/-- Vector M7: CLOSE after the last frame. -/
theorem test_close_clears :
    let t := nextState (exec .closeTx { testActive .qam16 [] with exh := true, done := true, bytes := 1#32, wptr := 88#32 })
    t.mode = .idle ∧ t.scheme = .qam16 ∧ t.exh = false ∧ t.done = false ∧ t.bytes = 0#32 ∧ t.wptr = 0#32 := by
  decide

/-! ### Steps from outside -/

/-- Vector M11: decoding comes before the mode check. -/
theorem test_illegal_word_is_illcmd :
    let t := nextState (issueCommand 0x5100#16 testIdle)
    t.fault = .illcmd ∧ t.finfo = 0x5100#16 ∧ t.mode = .halt := by decide

/-- Vectors M12 and M13: HALT ignores a word, reset leaves it. -/
theorem test_halt_and_reset :
    (nextState (issueCommand 0x7000#16 testHalt)).finfo = 0x1004#16 ∧
    (nextState (issueCommand 0x4000#16 testHalt)).mode = .halt ∧
    status (nextState (runInput .reset testHalt)) = status State.reset := by decide

/-- R44: the block's reset resets neither the source nor the owner; R73: the host's reset ends the sink's turn. -/
theorem test_reset_and_the_environment :
    let s := { testActive .qpsk [0x1B#8] with done := true, owner := .sink }
    (resetBlock s).owner = .sink ∧ (resetBlock s).src = s.src ∧ (nextState (runInput .reset s)).owner = .block ∧
    (nextState (runInput (.resetDuring 0x0000#16) s)).owner = .block := by decide

theorem test_step_takes_the_word :
    (nextState (step (testIdle.withFetchWord 16 0x1001))).symQ = 0xFC18#16 := by decide

/-- One word of each row runs as the first command after reset, whatever the free parameters are. -/
theorem test_rows_run_from_reset :
    [0x0000, 0x1001, 0x201B, 0x3000, 0x4000, 0x5000, 0x6000].all (fun w =>
      (decodeTableWord 16 w).isSome &&
      match step (State.reset.withFetchWord 16 w) with
      | .next _ => true
      | _ => false) = true := by decide

theorem test_sink_read_misaligned_refused :
    sinkReadLegal testCfg 2 4 = false ∧ sinkReadLegal testCfg 350 4 = false ∧
    sinkReadLegal testCfg 0 3 = false ∧ sinkReadLegal testCfg 348 4 = true := by decide

/-! ### Tables and groups -/

/-- Vectors 2.2: all sixteen entries of the default table as slot words. -/
theorem test_default_table :
    (List.range 16).map (fun g => symbolWord (qam16Entry testCfg (BitVec.ofNat 4 g))) =
      [0x0BB8F448#32, 0x0BB8FC18#32, 0x0BB80BB8#32, 0x0BB803E8#32, 0x03E8F448#32, 0x03E8FC18#32,
       0x03E80BB8#32, 0x03E803E8#32, 0xF448F448#32, 0xF448FC18#32, 0xF4480BB8#32, 0xF44803E8#32,
       0xFC18F448#32, 0xFC18FC18#32, 0xFC180BB8#32, 0xFC1803E8#32] := by decide

/-- Vectors X1 and X2. -/
theorem test_groups :
    groups .qpsk [0x6C#8] = [1#4, 2#4, 3#4, 0#4] ∧ groups .qam16 [0x6C#8] = [6#4, 12#4] ∧
    groups .qpsk [0x12#8, 0x34#8] = [0#4, 1#4, 0#4, 2#4, 0#4, 3#4, 1#4, 0#4] ∧
    groups .qam16 [0x12#8, 0x34#8] = [1#4, 2#4, 3#4, 4#4] := by decide

/-- Vector F9: frames of a source of 100000 and of 32728 bytes at the reference capacity. -/
theorem test_frame_counts :
    ceilDiv 100000 (payBytes Config.installed .qpsk) = 7 ∧ ceilDiv 32728 (payBytes Config.installed .qpsk) = 2 ∧
    ceilDiv 100000 (payBytes Config.installed .qam16) = 4 := by decide

/-! ### Witnesses: the hypotheses of every statement are met -/

theorem witness_ConfigurationCheckedAgainstConstraints :
    Config.check testParams = some testCfg := by decide

theorem witness_EncodeAndDecodeAgree : decode 0x211B#16 = .ok (.xload .qam16 0x1B#8) := by decide

theorem witness_DecodeFollowsThePatternTable :
    decode 0x10FF#16 = .ok (.lookup .qpsk 255#8) ∧
    0x10FF#16 &&& rowMask (.lookup .qam16 0#8) = rowMatch (.lookup .qam16 0#8) := by decide

/-- A word for each clause of `listed`, at its boundary, and a word outside it. -/
theorem witness_IllegalWordsRaiseIllcmd :
    testIdle.mode ≠ .halt ∧ (testActive .qpsk []).mode ≠ .halt ∧
    7 ≤ ((0x7000#16).extractLsb' 12 4).toNat ∧
    ((0x0200#16).extractLsb' 9 3).toNat ≠ 0 ∧
    (((0x6100#16).extractLsb' 12 4).toNat = 6 ∧ ((0x6100#16).extractLsb' 8 1).toNat ≠ 0) ∧
    (((0x3001#16).extractLsb' 12 4).toNat = 3 ∧ ((0x3001#16).extractLsb' 0 8).toNat ≠ 0) ∧
    (((0x4180#16).extractLsb' 12 4).toNat = 4 ∧ ((0x4180#16).extractLsb' 0 8).toNat ≠ 0) ∧
    ((0x6000#16).extractLsb' 12 4).toNat = 6 ∧ ((0x6000#16).extractLsb' 0 12).toNat = 0 := by decide

theorem witness_SweepLooksUpEveryEntryInOrder :
    1 < 2 ∧ testIdle.mode ≠ .halt ∧ 15 < tableSize (asmSchemeOf 1) ∧ 3 < tableSize (asmSchemeOf 0) := by decide

theorem witness_ProgramOnThePortRunsInOrder :
    ({ testIdle with inputs := programInputs [.sweep 0, .openTx 1] ++ [.reset] } : State).inputs =
      programInputs [.sweep 0, .openTx 1] ++ [.reset] := rfl

theorem witness_SixteenQamAmplitudesAreTheFourLevels : 0 < 16 ∧ 15 < 16 := by decide

/-- A table of the form HI-I: `fI` takes 10 to +a and `fQ` takes 11 to −3a. -/
def testTableHiI : Vector (Level × Level) 16 :=
  #v[(.negThree, .posThree), (.negThree, .posOne), (.negThree, .negOne), (.negThree, .negThree),
     (.negOne, .posThree), (.negOne, .posOne), (.negOne, .negOne), (.negOne, .negThree),
     (.posOne, .posThree), (.posOne, .posOne), (.posOne, .negOne), (.posOne, .negThree),
     (.posThree, .posThree), (.posThree, .posOne), (.posThree, .negOne), (.posThree, .negThree)]

/-- A table of each form exists that meets K4 as well. -/
theorem witness_AxisFunctionsUnderTheTableAssumptions :
    (∃ fI fQ : Fin 4 → Level,
      (∀ hi lo : Fin 4, testCfg.t16[4 * hi.val + lo.val] = (fI lo, fQ hi)) ∧ testCfg.K4) ∧
    (∃ (c : Config) (fI fQ : Fin 4 → Level), c.t16 = testTableHiI ∧
      (∀ hi lo : Fin 4, c.t16[4 * hi.val + lo.val] = (fI hi, fQ lo)) ∧ c.K4) := by
  refine ⟨⟨fun x => #v[Level.negThree, .negOne, .posThree, .posOne][x],
    fun x => #v[Level.posThree, .posOne, .negThree, .negOne][x], by decide, by unfold Params.K4; decide⟩,
    ⟨{ testParams with t16 := testTableHiI, ok := by decide },
     fun x => #v[Level.negThree, .negOne, .posOne, .posThree][x],
     fun x => #v[Level.posThree, .posOne, .negOne, .negThree][x], rfl, by decide, by unfold Params.K4; decide⟩⟩

theorem witness_GrayTableMeetsTheTableConstraints : testParams.t16 = t16Gray := rfl

theorem witness_NoTableEntryIsTheZeroPair :
    symbolAt testCfg .qpsk 3 = some ⟨0xFC18#16, 0xFC18#16⟩ ∧
    symbolAt testCfg .qam16 15 = some ⟨0x03E8#16, 0xFC18#16⟩ ∧ testCfg.t16 = t16Gray := by decide

theorem witness_LookupLoadsTheSymbolRegisters :
    testIdle.mode ≠ .halt ∧ (testActive .qpsk []).mode ≠ .halt ∧
    (3#8).toNat < tableSize .qpsk ∧ (15#8).toNat < tableSize .qam16 := by decide

/-- Boundary groups for the first two clauses; a word that raises BADBG for the third; 4 and 16 for the
last. -/
theorem witness_BadbgExactlyForLookupOutOfRange :
    testIdle.mode ≠ .halt ∧ 4 ≤ (4#8).toNat ∧ 16 ≤ (16#8).toNat ∧
    (∃ t, issueCommand 0x1004#16 testIdle = .next t ∧ t.fault = .badbg ∧ testIdle.fault ≠ .badbg) ∧
    4 ≤ 4 ∧ 16 ≤ 16 := by
  refine ⟨by decide, by decide, by decide, ⟨nextState (issueCommand 0x1004#16 testIdle), rfl, ?_⟩, by decide, by decide⟩
  decide

theorem witness_LookupIsPure :
    testIdle.mode ≠ .halt ∧ (testActive .qam16 [0x1B#8]).mode ≠ .halt ∧
    testIdle.cfg = (testActive .qam16 [0x1B#8]).cfg ∧ (15#8).toNat < tableSize .qam16 :=
  ⟨by decide, by decide, rfl, by decide⟩

theorem witness_GroupsFollowTheShiftFormula :
    1 < [0x12#8, 0x34#8].length ∧ 3 < groupsPerByte .qpsk ∧ 1 < groupsPerByte .qam16 := by decide

theorem witness_GroupsReassembleToTheirBytes : groups .qpsk [0x1B#8] = groups .qpsk [0x1B#8] := rfl

theorem witness_ExtractedGroupsAreInRange : 3#4 ∈ groups .qpsk [0x1B#8] ∧ 15#4 ∈ groups .qam16 [0xF7#8] := by decide

theorem witness_XloadStartsAFreshSequence : testIdle.mode = .idle := rfl

/-- Both branches. -/
theorem witness_XnextDeliversOrReportsEmpty :
    testIdle.mode = .idle ∧ testIdle.xrem = 0#3 ∧
    ({ testIdle with xrem := 4#3 } : State).mode = .idle ∧ ({ testIdle with xrem := 4#3 } : State).xrem ≠ 0#3 := by
  decide

/-- The last group and the first XNEXT past it. -/
theorem witness_XnextAfterXloadDeliversTheByteInOrder :
    testIdle.mode = .idle ∧ 3 < groupsPerByte .qpsk ∧ 1 < groupsPerByte .qam16 ∧ groupsPerByte .qam16 < 3 := by decide

theorem witness_SourceReadsConcatenate :
    Source.contract { bytes := [0x1B#8, 0xE4#8, 0xA5#8], cur := 1, limits := [] } := rfl

theorem witness_SlotStoreIsLittleEndian : 323 < 4 * 81 ∧ 4 * 81 + 4 ≤ 328 := by decide

/-- An open transmission whose last frame is built, with the frame buffer `m`. -/
def testDone (m : Memory) : State :=
  { testActive .qpsk [] with
      exh := true, done := true, wptr := 88#32, xbyte := 0xF7#8, bg := 3#4, fb := m, owner := .sink }

/-- A full frame buffer: 88 slots. -/
def testFull : Memory := fillSlots [] 0 (List.replicate 88 (padSymbol testCfg .qpsk))

theorem testDone_inv {m : Memory} (hr : ∀ a, a < 352 → (m.read a).isSome) (hw : m.wf)
    (hi : ∀ c ∈ m, c.1 < 352) : Inv (testDone m) where
  haltIffFault := ⟨fun h => (by cases h), fun h => absurd rfl h⟩
  infoZero := fun _ => rfl
  xremLe := Nat.zero_le _
  idleClear := fun h => by cases h
  activeExtractor := fun _ => ⟨rfl, rfl⟩
  exhDone := fun _ => rfl
  notDone := fun h => by cases h
  doneFull := fun _ => ⟨rfl, hr⟩
  bytesLe := Nat.zero_le _
  sinkDone := fun _ => rfl
  fbCanonical := hw
  fbInside := hi
  srcWf := Nat.le_refl _

/-- A state in which the sink owns a full buffer. -/
def testOwned : State := testDone testFull

theorem testOwned_inv : Inv testOwned := by
  refine testDone_inv (fun a h => read_fillSlots_isSome _ _ _ (Nat.zero_le a) ?_)
    (fillSlots_wf List.Pairwise.nil _ _) (fun c h => ?_)
  · rw [List.length_replicate]
    exact h
  · obtain ⟨-, h⟩ | h := mem_fillSlots h
    · rwa [List.length_replicate] at h
    · cases h

theorem testIdle_inv : Inv testIdle where
  haltIffFault := by decide
  infoZero := by decide
  xremLe := by decide
  idleClear := by decide
  activeExtractor := by decide
  exhDone := by decide
  notDone := by decide
  doneFull := by decide
  bytesLe := by decide
  sinkDone := by decide
  fbCanonical := List.Pairwise.nil
  fbInside := by decide
  srcWf := by decide

/-- A read outside R64, the last word of the buffer while the sink owns it, and the same while not. -/
theorem witness_SinkReadsOnlyWhatItOwns :
    Inv testOwned ∧ Inv testIdle ∧ ¬ (349 % 4 = 0) ∧
    ((4 = 1 ∨ 4 = 2 ∨ 4 = 4) ∧ 348 % 4 = 0 ∧ 348 + 4 ≤ 4 * testOwned.cfg.cap) ∧
    testOwned.owner = .sink ∧ testIdle.owner = .block :=
  ⟨testOwned_inv, testIdle_inv, by decide, by decide, rfl, rfl⟩

/-- A source with bytes left over, an exact fill, and an empty source. -/
theorem witness_BuildIsTheBigStepFunction :
    ReadyToBuild (testActive .qpsk [0x1B#8, 0xE4#8, 0xA5#8]) ∧ ReadyToBuild (testActive .qpsk [0x1B#8, 0xE4#8]) ∧
    ReadyToBuild (testActive .qam16 []) ∧ (testActive .qam16 []).src.contract := by
  unfold ReadyToBuild; decide

/-- A source that breaks the contract on its first read. -/
def testBroken : State :=
  { testActive .qpsk [0x1B#8, 0xE4#8] with src := { bytes := [0x1B#8, 0xE4#8], cur := 0, limits := [1, 7] } }

theorem witness_BuildCompletesWhateverTheSourceReturns : ReadyToBuild testBroken := by
  unfold ReadyToBuild; decide

theorem witness_BuildLeavesTheRestUnchanged :
    ReadyToBuild testBroken ∧ ∀ n, n < testBroken.cfg.cap → 352 < slotAddr n ∨ slotAddr n + 4 ≤ 352 := by
  refine ⟨by unfold ReadyToBuild; decide, fun n h => .inr ?_⟩
  have : n < 88 := h
  rw [slotAddr_eq]
  omega

set_option maxRecDepth 20000 in
/-- With a byte received and without one. -/
theorem witness_ExtractorRegistersAfterBuild :
    (ReadyToBuild (testActive .qpsk [0x1B#8]) ∧ ∃ t, exec .build (testActive .qpsk [0x1B#8]) = .next t ∧
      1 ≤ t.bytes.toNat) ∧
    (ReadyToBuild (testActive .qam16 []) ∧ ∃ t, exec .build (testActive .qam16 []) = .next t ∧
      t.bytes.toNat = 0) := by
  refine ⟨⟨by unfold ReadyToBuild; decide, _, exec_eq _ _, ?_⟩, ⟨by unfold ReadyToBuild; decide, _, exec_eq _ _, ?_⟩⟩ <;>
    decide

theorem witness_HeaderSlotsOfEveryFrame :
    ReadyToBuild (testActive .qpsk []) ∧ (testActive .qpsk []).scheme = .qpsk ∧ 79 < 80 ∧
    ReadyToBuild (testActive .qam16 []) ∧ (testActive .qam16 []).scheme = .qam16 ∧ 39 < 40 := by
  unfold ReadyToBuild; decide

/-- Vectors F4 and F5: `CHUNK = 64000` and `CHUNK = 1`. -/
theorem witness_ChunkCannotBeObserved :
    let s := testActive .qpsk [0x1B#8, 0xE4#8, 0xA5#8]
    let c : Config := { testParams with chunk := 1, ok := by decide }
    ReadyToBuild s ∧ s.src.contract ∧ c.cap = s.cfg.cap ∧ c.qpskA = s.cfg.qpskA ∧ c.qamA = s.cfg.qamA ∧
    c.t16 = s.cfg.t16 ∧ c.chunk ≠ s.cfg.chunk := by
  unfold ReadyToBuild; decide

theorem witness_PadSymbolsAreWholeBytes : ReadyToBuild (testActive .qpsk [0x1B#8]) ∧ ReadyToBuild testBroken := by
  unfold ReadyToBuild; decide

/-- Vector F3. -/
theorem witness_ExactFillNeedsNoExtraFrame :
    let s := testActive .qpsk [0x1B#8, 0xE4#8]
    ReadyToBuild s ∧ s.src.contract ∧ (s.src.bytes.drop s.src.cur).length = payBytes s.cfg s.scheme := by
  unfold ReadyToBuild; decide

theorem witness_ShortReadEndsThePayload :
    ReadyToBuild testBroken ∧ testBroken.src.limits = 1 :: [7] ∧
    1 < min testBroken.cfg.chunk (payBytes testBroken.cfg testBroken.scheme) ∧
    1 ≤ (testBroken.src.bytes.drop testBroken.src.cur).length := by
  unfold ReadyToBuild; decide

/-- A source of three bytes before OPEN, and an empty one. -/
theorem witness_FrameCountIsTheCeiling :
    let s := { testIdle with src := { bytes := [0x1B#8, 0xE4#8, 0xA5#8], cur := 0, limits := [] } }
    s.mode = .idle ∧ s.src.wf ∧ s.src.contract ∧ 1 ≤ (s.src.bytes.drop s.src.cur).length ∧
    1 < ceilDiv (s.src.bytes.drop s.src.cur).length (payBytes s.cfg .qpsk) ∧
    testIdle.mode = .idle ∧ testIdle.src.wf ∧ testIdle.src.contract ∧
    (testIdle.src.bytes.drop testIdle.src.cur).length = 0 := by decide

theorem witness_FramesCarryConsecutiveBytes :
    let s := { testIdle with src := { bytes := [0x1B#8, 0xE4#8, 0xA5#8], cur := 0, limits := [] } }
    s.mode = .idle ∧ s.src.wf ∧ s.src.contract ∧
    1 * payBytes s.cfg .qpsk < (s.src.bytes.drop s.src.cur).length := by decide

theorem witness_OpenStartsATransmission : testIdle.mode = .idle := rfl
theorem witness_CloseEndsTheTransmission : (testActive .qpsk []).mode = .active := rfl

/-- The worked example of R202 with no frame and with one. -/
theorem witness_TransmissionLeavesNoRegisterBehind :
    Inv testIdle ∧ testIdle.mode = .idle ∧
    (∃ t, execAll (.openTx .qpsk :: List.replicate 0 .build ++ [.closeTx]) testIdle = .next t ∧ t.mode ≠ .halt) ∧
    (∃ t, execAll (.openTx .qpsk :: List.replicate 1 .build ++ [.closeTx]) testIdle = .next t ∧ t.mode ≠ .halt) :=
  ⟨testIdle_inv, rfl, ⟨_, rfl, by decide⟩, ⟨_, rfl, by decide +kernel⟩⟩

/-- Each column of the table R204. -/
theorem witness_LegalityByMode :
    testHalt.mode = .halt ∧ testIdle.mode ≠ .halt ∧ testIdle.mode = .idle ∧
    (testActive .qpsk []).mode = .active ∧ (testActive .qpsk []).exh = false ∧
    testOwned.mode = .active ∧ testOwned.exh = true := by decide

theorem witness_ModeMovesOnlyAsTheTableSays :
    (∃ t, issueCommand 0x4000#16 testHalt = .next t ∧ testHalt.mode = .halt) ∧
    (∃ t, issueCommand 0x4000#16 testIdle = .next t ∧ testIdle.mode = .idle ∧ t.mode = .active) ∧
    (∃ t, issueCommand 0x6000#16 (testActive .qpsk []) = .next t ∧ (testActive .qpsk []).mode = .active ∧ t.mode = .idle) ∧
    (∃ t, issueCommand 0x5000#16 testIdle = .next t ∧ testIdle.mode ≠ .halt ∧ t.mode = .halt) ∧
    (∃ t, runInput .reset testHalt = .next t) ∧ (∃ t, runInput (.resetDuring 0x5000#16) testIdle = .next t) ∧
    (∃ t, runInput (.bindSource { bytes := [0x1B#8], cur := 1, limits := [] }) testIdle = .next t) ∧
    (∃ t, runInput (.sinkRead 348 4) testIdle = .next t) :=
  ⟨⟨_, rfl, by decide⟩, ⟨_, rfl, by decide⟩, ⟨_, rfl, by decide⟩, ⟨_, rfl, by decide⟩, ⟨_, rfl⟩, ⟨_, rfl⟩, ⟨_, rfl⟩,
    ⟨_, rfl⟩⟩

theorem witness_FaultEntryWritesThreeRegisters :
    testIdle.mode ≠ .halt ∧ ∃ t, issueCommand 0x1004#16 testIdle = .next t ∧ t.mode = .halt :=
  ⟨by decide, _, rfl, by decide⟩

/-- One word for each check of R225, in order. -/
theorem witness_FaultPriority :
    testHalt.mode = .halt ∧ testIdle.mode ≠ .halt ∧ decode 0x5100#16 = .error .schemeNotZero ∧
    decode 0x5000#16 = .ok .build ∧ legal .build testIdle.mode testIdle.exh = false ∧
    decode 0x1004#16 = .ok (.lookup .qpsk 4#8) ∧ tableSize .qpsk ≤ (4#8).toNat ∧
    legal (.lookup .qpsk 4#8) testIdle.mode testIdle.exh = true ∧
    decode 0x1003#16 = .ok (.lookup .qpsk 3#8) ∧ (3#8).toNat < tableSize .qpsk := by decide

theorem witness_OnlyResetLeavesHalt :
    ({ testHalt with inputs := [.command 0x4000#16] } : State).mode = .halt ∧
    ({ testHalt with inputs := [.command 0x4000#16] } : State).inputs = .command 0x4000#16 :: [] ∧
    ∃ t, step { testHalt with inputs := [.reset] } = .next t ∧ t.mode ≠ .halt :=
  ⟨rfl, rfl, _, rfl, by decide⟩

theorem witness_ResetClearsEveryRegister :
    ({ testHalt with inputs := [.reset, .command 0#16] } : State).inputs = .reset :: [.command 0#16] := rfl

/-- A BUILD in ACTIVE on a source in contract and on one that breaks it, and a word that is no legal
BUILD. -/
theorem witness_ResetDuringBuildLeavesAPrefixOfTheReads :
    (testActive .qpsk [0x1B#8]).src.wf ∧ testBroken.src.wf ∧ testBroken.mode = .active ∧
    decode 0x5000#16 = .ok .build ∧ (testActive .qpsk [0x1B#8]).mode = .active ∧
    (testActive .qpsk [0x1B#8]).exh = false ∧ testIdle.mode ≠ .active := by decide

/-- A register changed by each writer: `MODE` and `SCHEME` by OPEN, `FAULT` by an entry, `SYM_I` by
LOOKUP, the extractor by XLOAD and XNEXT, `EXH`, `DONE`, `WPTR` by BUILD. -/
theorem witness_RegistersHaveOnlyTheirWriters :
    (∃ t, exec (.openTx .qam16) testIdle = .next t ∧ t.mode ≠ testIdle.mode ∧ t.scheme ≠ testIdle.scheme) ∧
    (∃ t, exec .closeTx testIdle = .next t ∧ t.fault ≠ testIdle.fault ∧ t.finfo ≠ testIdle.finfo) ∧
    (∃ t, exec (.lookup .qpsk 0#8) testIdle = .next t ∧ t.symI ≠ testIdle.symI) ∧
    (∃ t, exec (.xload .qam16 7#8) testIdle = .next t ∧ t.xbyte ≠ testIdle.xbyte ∧ t.xrem ≠ testIdle.xrem ∧
      t.xw ≠ testIdle.xw) ∧
    (∃ t, exec .xnext { testIdle with xbyte := 0xFF#8, xrem := 1#3 } = .next t ∧ t.bg ≠ testIdle.bg) ∧
    (∃ t, exec .xnext testIdle = .next t ∧ t.xempty ≠ testIdle.xempty) :=
  ⟨⟨_, rfl, by decide⟩, ⟨_, rfl, by decide⟩, ⟨_, rfl, by decide⟩, ⟨_, rfl, by decide⟩, ⟨_, rfl, by decide⟩,
    ⟨_, rfl, by decide⟩⟩

set_option maxRecDepth 20000 in
/-- BUILD writes its registers and moves the source. -/
theorem witness_RegistersHaveOnlyTheirWriters_build :
    ∃ t, exec .build (testActive .qpsk [0x1B#8]) = .next t ∧ t.exh ≠ false ∧ t.done ≠ false ∧ t.bytes ≠ 0#32 ∧
      t.wptr ≠ 0#32 ∧ t.src.cur ≠ 0 :=
  ⟨_, exec_eq _ _, by decide⟩

theorem witness_CursorAdvancesByExactlyTheBytesConsumed :
    (∃ t, exec .build (testActive .qpsk [0x1B#8]) = .next t) ∧ (testActive .qpsk [0x1B#8]).mode = .active ∧
    (testActive .qpsk [0x1B#8]).exh = false ∧ (∃ t, exec .nop testIdle = .next t) :=
  ⟨⟨_, exec_eq _ _⟩, rfl, rfl, ⟨_, exec_eq _ _⟩⟩

/-- A step inside ACTIVE, and OPEN 1 in IDLE. -/
theorem witness_SchemeIsFixedWithinATransmission :
    (∃ t, step { testActive .qam16 [] with inputs := [.command 0x0000#16] } = .next t ∧ t.mode = .active) ∧
    (∃ t, step { testIdle with inputs := [.command 0x4100#16] } = .next t ∧ t.scheme ≠ testIdle.scheme) :=
  ⟨⟨_, rfl, by decide⟩, ⟨_, rfl, by decide⟩⟩

theorem witness_StepRunsTheDecodedCommand :
    ({ testIdle with inputs := [.command 0x1001#16] } : State).inputs = .command 0x1001#16 :: [] ∧
    decode 0x1001#16 = .ok (.lookup .qpsk 1#8) ∧ testIdle.inputs = [] := by decide

/-- From IDLE on OPEN, and from an owned buffer on a sink read. -/
theorem witness_EveryStepKeepsTheInvariant :
    Inv testIdle ∧ (∃ t, step testIdle = .next t) ∧ Inv testOwned ∧ (∃ t, step testOwned = .next t) :=
  ⟨testIdle_inv, ⟨_, rfl⟩, testOwned_inv, ⟨_, rfl⟩⟩

/-- One state for each clause of the hand-off; the last is a NOP while the sink owns the buffer. -/
theorem witness_SinkOwnsFromBuildToTheNextBuildCloseOrReset :
    (∃ t, step { testActive .qpsk [] with inputs := [.command (encode .build)] } = .next t) ∧
    (testActive .qpsk []).mode = .active ∧ (testActive .qpsk []).exh = false ∧
    (∃ t, step { testOwned with inputs := [.command (encode .build)] } = .next t) ∧
    ¬ (testOwned.mode = .active ∧ testOwned.exh = false) ∧
    (∃ t, step { testOwned with inputs := [.command (encode .closeTx)] } = .next t) ∧
    (∃ t, step { testOwned with inputs := [.reset] } = .next t) ∧
    (∃ t, step { testOwned with inputs := [.resetDuring 0x5000#16] } = .next t) ∧
    (∃ t, step { testOwned with inputs := [.command (encode .nop)] } = .next t) ∧
    Input.command (encode .nop) ≠ .command (encode .build) ∧
    Input.command (encode .nop) ≠ .command (encode .closeTx) ∧ Input.command (encode .nop) ≠ .reset ∧
    ∀ c, Input.command (encode .nop) ≠ .resetDuring c :=
  ⟨⟨_, rfl⟩, rfl, rfl, ⟨_, rfl⟩, fun h => absurd h.2 (by decide), ⟨_, rfl⟩, ⟨_, rfl⟩, ⟨_, rfl⟩, ⟨_, rfl⟩, by decide,
    by decide, by decide, fun _ => by simp⟩

end Sys2Proof.Machine
end

section
/-! The proofs about the configuration and its derived quantities (00_scope.md R6, R7). -/

namespace Sys2Proof

theorem Config.check_eq_none_iff (p : Params) : Config.check p = none ↔ ¬ p.wf := by
  by_cases h : p.wf <;> simp [Config.check, h]

theorem Config.check_eq_some_iff (p : Params) (c : Config) :
    Config.check p = some c ↔ c.toParams = p := by
  constructor
  · intro hc
    by_cases h : p.wf
    · rw [Config.check, dif_pos h] at hc
      cases hc
      rfl
    · rw [(Config.check_eq_none_iff p).mpr h] at hc
      cases hc
  · rintro rfl
    exact dif_pos c.ok

theorem Config.cap_le (c : Config) : c.cap ≤ 2 ^ 30 := by
  obtain ⟨-, -, hle, -⟩ := c.ok
  exact hle

/-- Settles O1: `Config.check` is none off `Params.wf`, and what it answers carries its argument. -/
theorem configurationCheckedAgainstConstraints :
    Obligations.ConfigurationCheckedAgainstConstraints := fun p =>
  ⟨Config.check_eq_none_iff p, fun c => (Config.check_eq_some_iff p c).mp⟩

end Sys2Proof

namespace Sys2Proof.Machine

@[simp] theorem preGroups_qpsk : preGroups .qpsk = 72 := rfl
@[simp] theorem preGroups_qam16 : preGroups .qam16 = 36 := rfl
@[simp] theorem syncGroups_qpsk : syncGroups .qpsk = 8 := rfl
@[simp] theorem syncGroups_qam16 : syncGroups .qam16 = 4 := rfl

theorem payCap_add_headerGroups (c : Config) (s : Scheme) : payCap c s + headerGroups s = c.cap := by
  have h := headerGroups_le_cap c s
  exact Nat.sub_add_cancel (by omega)

theorem four_le_payCap (c : Config) (s : Scheme) : 4 ≤ payCap c s := by
  have hsum := payCap_add_headerGroups c s
  have hle := headerGroups_le_cap c s
  omega

theorem groupsPerByte_dvd_payCap (c : Config) (s : Scheme) : groupsPerByte s ∣ payCap c s :=
  ⟨payBytes c s, (payBytes_mul c s).symm⟩

/-- Settles O2: the header's sizes scheme by scheme; the rest from the laws of `payCap` and `payBytes`,
which use R7(a) through `headerGroups_le_cap`, `payBytes_mul` and `Config.cap_le`. -/
theorem derivedQuantitiesOfEveryConfiguration :
    Obligations.DerivedQuantitiesOfEveryConfiguration := by
  intro c s
  have haddr : 4 * c.cap ≤ 2 ^ 32 := by
    have hcap := c.cap_le
    omega
  refine ⟨?header, payCap_add_headerGroups c s, four_le_payCap c s, groupsPerByte_dvd_payCap c s,
    payBytes_mul c s, payBytes_pos c s, haddr⟩
  cases s <;> simp

end Sys2Proof.Machine
end

section
/-! What keeps the invariant `Inv`: the operations, the commands, the inputs, and so every step. -/

namespace Sys2Proof.Machine

/-! ### The operations that several commands share -/

section operations
variable {s : State}

theorem withInputs_inv (h : Inv s) (l : List Input) : Inv (withInputs l s) := { h with }

/-- A fault entry (60_exceptions.md R224) sets `FAULT` and `MODE` together, which is all that R29 asks. -/
theorem raiseFault_inv (h : Inv s) {code : FaultCode} (hcode : code ≠ .noFault) (c : CmdWord) :
    Inv (raiseFault code c s) :=
  { h with
    haltIffFault := by simp [hcode]
    infoZero := fun hno => absurd hno hcode
    idleClear := by simp
    activeExtractor := by simp }

theorem ownerWhenIssued_eq_sink {i : Instr} {o : Owner} (h : ownerWhenIssued i o = .sink) : o = .sink := by
  cases i with
  | build => cases h
  | closeTx => cases h
  | _ => exact h

theorem handBack_inv (h : Inv s) (i : Instr) : Inv (handBack i s) :=
  { h with sinkDone := fun ho => h.sinkDone (ownerWhenIssued_eq_sink ho) }

/-- The reset state is in the invariant whatever the registers were; of the environment it takes that the
cursor lies in the source and that the sink's turn is over (10_state.md R44). -/
theorem resetBlock_inv (hsrc : s.src.wf) (howner : s.owner = .block) : Inv (resetBlock s) where
  haltIffFault := by simp
  infoZero := by simp
  xremLe := by simp
  idleClear := by simp
  activeExtractor := by simp
  exhDone := by simp
  notDone := by simp
  doneFull := by simp
  bytesLe := by simp
  sinkDone := by simp [howner]
  fbCanonical := List.Pairwise.nil
  fbInside := by simp
  srcWf := hsrc

end operations

/-! ### The effect of each command that is legal -/

section effects
variable {s : State}

theorem lookupEffect_inv (h : Inv s) (sel : Scheme) (bg : Byte) : Inv (lookupEffect sel bg s) := by
  obtain ⟨-, x, -, he⟩ | ⟨-, he⟩ := lookupEffect_cases sel bg s
  · rw [he]
    exact { h with }
  · rw [he]
    exact raiseFault_inv h (by decide) _

/-- A load sets `XREM` to `gpb(XW)`, the bound itself; no transmission is open. -/
theorem loadByte_inv (h : Inv s) (hidle : s.mode = .idle) (w : Scheme) (b : Byte) : Inv (loadByte w b s) :=
  { h with
    xremLe := by cases w <;> simp
    activeExtractor := by simp [hidle] }

theorem takeGroup_xrem_toNat (hne : s.xrem ≠ 0#3) : (takeGroup s).xrem.toNat = s.xrem.toNat - 1 := by
  rw [takeGroup_xrem]
  bv_omega

theorem nextEffect_inv (h : Inv s) (hidle : s.mode = .idle) : Inv (nextEffect s) := by
  unfold nextEffect
  split
  · exact { h with activeExtractor := by simp [hidle] }
  · next hne =>
    have hle := h.xremLe
    exact
      { h with
        xremLe := by
          rw [takeGroup_xrem_toNat hne, takeGroup_xw]
          omega
        activeExtractor := by simp [hidle] }

/-- Clearing a transmission keeps all of the invariant but the sink's ownership, which needs `DONE`. -/
theorem clearTransmission_inv (h : Inv s) (howner : s.owner ≠ .sink) : Inv (clearTransmission s) :=
  { h with
    xremLe := by simp
    idleClear := by simp
    activeExtractor := by simp
    exhDone := by simp
    notDone := by simp
    doneFull := by simp
    bytesLe := by simp
    sinkDone := fun ho => absurd ho howner }

/-- In IDLE `DONE` is 0, so that the sink does not own the buffer and OPEN may clear `DONE`. -/
theorem openEffect_inv (h : Inv s) (hidle : s.mode = .idle) (sel : Scheme) : Inv (openEffect sel s) := by
  obtain ⟨-, hdone⟩ := h.idleClear hidle
  have howner : s.owner ≠ .sink := fun ho => by simp [h.sinkDone ho] at hdone
  have hnofault : s.fault = .noFault := by simpa [hidle] using h.haltIffFault
  exact
    { clearTransmission_inv h howner with
      haltIffFault := by simp [openEffect, hnofault]
      idleClear := by simp [openEffect]
      activeExtractor := by simp [openEffect]
      bytesLe := by simp [openEffect] }

theorem closeEffect_inv (h : Inv s) (hactive : s.mode = .active) : Inv (closeEffect s) := by
  have hnofault : s.fault = .noFault := by simpa [hactive] using h.haltIffFault
  have hclear : Inv (clearTransmission (takeBack s)) :=
    clearTransmission_inv { h with sinkDone := by simp } (by simp)
  exact
    { hclear with
      haltIffFault := by simp [closeEffect, hnofault]
      idleClear := by simp [closeEffect]
      activeExtractor := by simp [closeEffect] }

/-- A frame has one symbol for each slot of the buffer (42_frame_packer.md R160). -/
theorem frameSymbols_length {c : Config} {sel : Scheme} {p : List Byte} (hp : p.length ≤ payBytes c sel) :
    (frameSymbols c sel p).length = c.cap := by
  have hpay := payBytes_mul c sel
  have hsum := header_add_payBytes c sel
  have hle := Nat.mul_le_mul_left (groupsPerByte sel) hp
  simp only [frameSymbols, List.length_append, List.length_map, List.length_replicate, groups_length_eq,
    headerBytes_length, Nat.mul_add]
  omega

/-- BUILD ends with a frame in every slot, at most `PAYBYTES` bytes counted and the cursor past exactly
those (42_frame_packer.md R173). -/
theorem buildFrame_inv (h : Inv s) (hactive : s.mode = .active) : Inv (buildFrame s) := by
  obtain ⟨p, r, short, he, -, hrest, hbytes, hcur, hpay, -⟩ := buildFrame_spec s
  have hcap := s.cfg.cap_le
  have hlen := frameSymbols_length hpay
  have hsrc := h.srcWf
  rw [Source.rest_length] at hrest
  rw [he]
  exact
    { h with
      xremLe := by simp
      idleClear := by simp [hactive]
      activeExtractor := by simp
      exhDone := by simp
      notDone := by simp
      doneFull := fun _ =>
        ⟨by simp only [BitVec.toNat_ofNat]; omega,
          fun a ha => read_fillSlots_isSome _ _ _ (Nat.zero_le _) (by simpa [hlen] using ha)⟩
      bytesLe := le_trans (by simpa using Nat.mod_le _ _) hpay
      sinkDone := by simp
      fbCanonical := fillSlots_wf h.fbCanonical _ _
      fbInside := fun c hc => by
        obtain ⟨-, hlt⟩ | hold := mem_fillSlots hc
        · rw [hlen] at hlt
          simpa using hlt
        · exact h.fbInside c hold
      srcWf := by
        simp only [Source.wf] at hsrc ⊢
        rw [hbytes, hcur]
        omega }

/-- The mode a legal command finds (43_session_control.md R204) is what its effect needs. -/
theorem effectOf_inv {i : Instr} (h : Inv s) (hl : legal i s.mode s.exh = true) : Inv (effectOf i s) := by
  cases i with
  | nop => exact h
  | lookup sel bg => exact lookupEffect_inv h sel bg
  | xload sel b => exact loadByte_inv h (by simpa [legal] using hl) sel b
  | xnext => exact nextEffect_inv h (by simpa [legal] using hl)
  | openTx sel => exact openEffect_inv h (by simpa [legal] using hl) sel
  | build =>
    obtain ⟨hactive, -⟩ : s.mode = .active ∧ s.exh = false := by simpa [legal] using hl
    exact buildFrame_inv h hactive
  | closeTx => exact closeEffect_inv h (by simpa [legal] using hl)

end effects

/-! ### Commands, inputs, steps -/

section inputs
variable {s t : State}

theorem exec_inv {i : Instr} (h : Inv s) (he : exec i s = .next t) : Inv t := by
  obtain ⟨-, rfl⟩ | ⟨-, -, rfl⟩ | ⟨-, hl, rfl⟩ := exec_cases he
  · exact handBack_inv h i
  · exact raiseFault_inv (handBack_inv h i) (by decide) _
  · exact effectOf_inv h hl

theorem issueCommand_inv {c : CmdWord} (h : Inv s) (he : issueCommand c s = .next t) : Inv t := by
  obtain ⟨i, -, hi⟩ | ⟨e, -, ⟨-, rfl⟩ | ⟨-, rfl⟩⟩ := issueCommand_cases he
  · exact exec_inv h hi
  · exact h
  · exact raiseFault_inv h (by decide) _

theorem abandonedSource_wf (h : s.src.wf) (advance reads : Nat) : (abandonedSource advance reads s).wf := by
  obtain ⟨hbytes, n, hcur, -, hn⟩ := abandonedSource_spec advance reads s
  rw [Source.rest_length] at hn
  simp only [Source.wf] at h ⊢
  rw [hbytes, hcur]
  omega

theorem sourceAtReset_wf (h : s.src.wf) (c : CmdWord) : (sourceAtReset c s).wf := by
  unfold sourceAtReset
  split
  · split
    · exact abandonedSource_wf h _ _
    · exact h
  · exact h

theorem sinkRead_inv {addr n : Nat} (h : Inv s) (he : sinkRead addr n s = .next t) : Inv t := by
  obtain ⟨v, -, rfl⟩ | ⟨-, rfl⟩ := sinkRead_cases he
  · exact { h with }
  · exact { h with }

theorem bindSource_inv {src : Source} (h : Inv s) (he : bindSource src s = .next t) : Inv t := by
  obtain ⟨hwf, rfl⟩ := bindSource_cases he
  exact { h with srcWf := hwf }

theorem runInput_inv {x : Input} (h : Inv s) (he : runInput x s = .next t) : Inv t := by
  cases x with
  | command c => exact issueCommand_inv h he
  | reset =>
    cases he
    exact resetBlock_inv h.srcWf rfl
  | resetDuring c =>
    cases he
    exact resetBlock_inv (sourceAtReset_wf h.srcWf c) rfl
  | bindSource src => exact bindSource_inv h he
  | sinkRead addr n => exact sinkRead_inv h he

end inputs

/-- Settles O57: a step waits or takes one input, and each input keeps the invariant. -/
theorem everyStepKeepsTheInvariant : Obligations.EveryStepKeepsTheInvariant := by
  intro s t h hstep
  obtain ⟨-, rfl⟩ | ⟨x, later, -, he⟩ := step_cases hstep
  · exact h
  · exact runInput_inv (withInputs_inv h later) he

/-- Settles O58: the state after reset is what the block's reset makes of itself. -/
theorem resetMeetsTheInvariant : Obligations.ResetMeetsTheInvariant :=
  resetBlock_inv (s := State.reset) (Nat.le_refl 0) rfl

end Sys2Proof.Machine
end

section
/-! Who changes `SCHEME` (10_state.md R22) and the other registers (the column "written by" of R20), and the
codes on the status outputs. -/

namespace Sys2Proof.Machine

/-! ### The scheme -/

section scheme
variable {s t : State}

/-- Of the effects of legal commands only OPEN's writes `SCHEME`. -/
theorem effectOf_scheme_ne {i : Instr} (h : (effectOf i s).scheme ≠ s.scheme) :
    i = .openTx (effectOf i s).scheme := by
  cases i with
  | openTx sel => rfl
  | lookup sel bg =>
    obtain ⟨-, x, -, he⟩ | ⟨-, he⟩ := lookupEffect_cases sel bg s <;> simp [effectOf, he] at h
  | xnext =>
    simp only [effectOf, nextEffect] at h
    split at h <;> simp at h
  | build =>
    obtain ⟨p, r, short, he, -⟩ := buildFrame_spec s
    simp [effectOf, he] at h
  | _ => exact absurd rfl h

theorem exec_scheme_ne {i : Instr} (he : exec i s = .next t) (h : t.scheme ≠ s.scheme) :
    s.mode = .idle ∧ i = .openTx t.scheme := by
  obtain ⟨-, rfl⟩ | ⟨-, -, rfl⟩ | ⟨-, hl, rfl⟩ := exec_cases he
  · exact absurd rfl h
  · exact absurd rfl h
  · have hopen := effectOf_scheme_ne h
    rw [hopen] at hl
    exact ⟨by simpa [legal] using hl, hopen⟩

theorem issueCommand_scheme_ne {c : CmdWord} (he : issueCommand c s = .next t) (h : t.scheme ≠ s.scheme) :
    s.mode = .idle ∧ decode c = .ok (.openTx t.scheme) := by
  obtain ⟨i, hdec, hi⟩ | ⟨e, -, ⟨-, rfl⟩ | ⟨-, rfl⟩⟩ := issueCommand_cases he
  · obtain ⟨hidle, rfl⟩ := exec_scheme_ne hi h
    exact ⟨hidle, hdec⟩
  · exact absurd rfl h
  · exact absurd rfl h

/-- An input that changes `SCHEME` is OPEN in IDLE, or a reset, which ends in IDLE. -/
theorem runInput_scheme_ne {x : Input} (he : runInput x s = .next t) (h : t.scheme ≠ s.scheme) :
    (s.mode = .idle ∧ ∃ c, x = .command c ∧ decode c = .ok (.openTx t.scheme)) ∨
    (t.mode = .idle ∧ (x = .reset ∨ ∃ c, x = .resetDuring c)) := by
  cases x with
  | command c =>
    obtain ⟨hidle, hdec⟩ := issueCommand_scheme_ne he h
    exact .inl ⟨hidle, c, rfl, hdec⟩
  | reset =>
    cases he
    exact .inr ⟨rfl, .inl rfl⟩
  | resetDuring c =>
    cases he
    exact .inr ⟨rfl, .inr ⟨c, rfl⟩⟩
  | bindSource src =>
    obtain ⟨-, rfl⟩ := bindSource_cases he
    exact absurd rfl h
  | sinkRead addr n =>
    obtain ⟨v, -, rfl⟩ | ⟨-, rfl⟩ := sinkRead_cases he
    · exact absurd rfl h
    · exact absurd rfl h

theorem step_scheme_ne (hstep : step s = .next t) (h : t.scheme ≠ s.scheme) :
    (s.mode = .idle ∧ ∃ c later, s.inputs = .command c :: later ∧ decode c = .ok (.openTx t.scheme)) ∨
    (t.mode = .idle ∧ ∃ later, s.inputs = .reset :: later ∨ ∃ c, s.inputs = .resetDuring c :: later) := by
  obtain ⟨-, rfl⟩ | ⟨x, later, hin, he⟩ := step_cases hstep
  · exact absurd rfl h
  · obtain ⟨hidle, c, rfl, hdec⟩ | ⟨hidle, rfl | ⟨c, rfl⟩⟩ := runInput_scheme_ne he h
    · exact .inl ⟨hidle, c, later, hin, hdec⟩
    · exact .inr ⟨hidle, later, .inl hin⟩
    · exact .inr ⟨hidle, later, .inr ⟨c, hin⟩⟩

end scheme

/-- Settles O53: a step that changes the scheme begins in IDLE (OPEN) or ends in it (a reset). -/
theorem schemeIsFixedWithinATransmission : Obligations.SchemeIsFixedWithinATransmission := by
  intro s t hstep
  refine ⟨fun hs ht => ?_, fun h => (step_scheme_ne hstep h).imp id And.right⟩
  by_contra h
  obtain ⟨hidle, -⟩ | ⟨hidle, -⟩ := step_scheme_ne hstep h
  · simp [hs] at hidle
  · simp [ht] at hidle

/-! ### The writers of every register -/

theorem ownerWhenIssued_ne {i : Instr} {o : Owner} (h : ownerWhenIssued i o ≠ o) :
    i = .build ∨ i = .closeTx := by
  cases i with
  | build => exact .inl rfl
  | closeTx => exact .inr rfl
  | _ => exact absurd rfl h

/-- A fault entry after the command has been issued, as one record: three registers and the owner. -/
theorem raiseFault_handBack_eq (code : FaultCode) (c : CmdWord) (i : Instr) (s : State) :
    raiseFault code c (handBack i s) =
      { s with fault := code, finfo := c, mode := .halt, owner := ownerWhenIssued i s.owner } := rfl

/-- Settles O51: a command that HALT ignores and one that raises SEQ write no register but those of a fault
entry; the effect of a legal one is known field by field. -/
theorem registersHaveOnlyTheirWriters : Obligations.RegistersHaveOnlyTheirWriters := by
  intro i s t he
  obtain ⟨-, rfl⟩ | ⟨-, -, rfl⟩ | ⟨-, -, rfl⟩ := exec_cases he
  · simpa using ownerWhenIssued_ne (i := i) (o := s.owner)
  · simpa [raiseFault_handBack_eq] using ownerWhenIssued_ne (i := i) (o := s.owner)
  · cases i with
    | nop => simp [effectOf]
    | lookup sel bg =>
      obtain ⟨-, x, -, hx⟩ | ⟨-, hx⟩ := lookupEffect_cases sel bg s
      · simp [effectOf, hx]
      · simp [effectOf, hx, raiseFault]
    | xload sel b => simp [effectOf]
    | xnext =>
      simp only [effectOf, nextEffect]
      split <;> simp
    | openTx sel => simp [effectOf, openEffect]
    | build =>
      obtain ⟨p, r, short, hb, -⟩ := buildFrame_spec s
      simp [effectOf, hb]
    | closeTx => simp [effectOf, closeEffect]

/-! ### The status outputs -/

/-- Settles O54: by the codes' definitions; after reset each register is the value whose code is 0. -/
theorem statusOutputsCarryTheCodes : Obligations.StatusOutputsCarryTheCodes := by
  refine ⟨fun s => ⟨?mode, ?scheme, ?fault⟩, rfl⟩
  case mode => cases h : s.mode <;> simp [status, Mode.code, h]
  case scheme => cases h : s.scheme <;> simp [status, Scheme.bit, h]
  case fault => cases h : s.fault <;> simp [status, FaultCode.code, h]

end Sys2Proof.Machine
end

section
/-! The proofs about the source port, a slot's bytes, the sink's reads, and the source's cursor over a BUILD
(20_memory.md R61 to R69, R78). -/

namespace Sys2Proof.Machine

/-! ### The source port -/

section source
variable {src : Source}

/-- A read uses up one of the environment's limits, so that a source without limits stays without. -/
theorem Source.afterRead_contract (h : src.contract) (n : Nat) : (src.afterRead n).contract := by
  simp only [Source.contract] at h
  simp [Source.contract, Source.afterRead, h]

/-- A read of both sizes receives what is received by two reads in a row. -/
theorem Source.readCount_add (h : src.contract) (n k : Nat) :
    src.readCount (n + k) = src.readCount n + (src.afterRead n).readCount k := by
  rw [Source.readCount_contract h, Source.readCount_contract h,
    Source.readCount_contract (Source.afterRead_contract h n), Source.rest_afterRead, List.length_drop,
    Source.readCount_contract h]
  omega

/-- The second of two reads takes up the source where the first has left it. -/
theorem srcRead_add (h : src.contract) (n k : Nat) :
    (srcRead src (n + k)).1 = (srcRead src n).1 ++ (srcRead (srcRead src n).2 k).1 := by
  simp only [srcRead, Source.readCount_add h, List.take_add, Source.rest_afterRead]

end source

/-- Settles O26: what one read does, and the number of bytes received adds up over two reads. -/
theorem sourceReadsConcatenate : Obligations.SourceReadsConcatenate := by
  intro src n k h
  obtain ⟨hdata, -, hbytes, hcur, -⟩ := srcRead_spec src n
  have hcount : src.readCount n = min n (src.bytes.length - src.cur) := by
    rw [Source.readCount_contract h, Source.rest_length]
  have htwo : (srcRead src (n + k)).2.cur = (srcRead (srcRead src n).2 k).2.cur := by
    simp only [srcRead, Source.afterRead, Source.readCount_add h, Nat.add_assoc]
  rw [hcount] at hdata hcur
  exact ⟨hdata, hcur, hbytes, srcRead_add h n k, htwo⟩

/-! ### The bytes of a slot -/

theorem getLsbD_symbolWord (x : Symbol) (j : Nat) :
    (symbolWord x).getLsbD j = if j < 16 then x.i.getLsbD j else x.q.getLsbD (j - 16) := by
  rw [symbolWord, BitVec.getLsbD_append]

/-- The low half of a symbol word is I (20_memory.md R61). -/
theorem symbolWord_byte_low (x : Symbol) {k : Nat} (hk : k < 2) :
    (symbolWord x >>> (8 * k)).setWidth 8 = x.i.extractLsb' (8 * k) 8 := by
  ext j hj
  have hlow : 8 * k + j < 16 := by omega
  simp [getLsbD_symbolWord, hlow]

/-- The high half of a symbol word is Q (20_memory.md R61). -/
theorem symbolWord_byte_high (x : Symbol) (k : Nat) :
    (symbolWord x >>> (8 * (k + 2))).setWidth 8 = x.q.extractLsb' (8 * k) 8 := by
  ext j hj
  have hhigh : ¬ 8 * (k + 2) + j < 16 := by omega
  have hsub : 8 * (k + 2) + j - 16 = 8 * k + j := by omega
  simp [getLsbD_symbolWord, hhigh, hsub]

/-- The bytes of I in the slot just stored. -/
theorem read_fbWrite_low (m : Memory) (n : Nat) (x : Symbol) {k : Nat} (hk : k < 2) :
    (fbWrite m n x).read (4 * n + k) = some (x.i.extractLsb' (8 * k) 8) := by
  rw [read_fbWrite_inside m n x (by omega) (by omega), Nat.add_sub_cancel_left, symbolWord_byte_low x hk]

/-- The bytes of Q in the slot just stored. -/
theorem read_fbWrite_high (m : Memory) (n : Nat) (x : Symbol) {k : Nat} (hk : k < 2) :
    (fbWrite m n x).read (4 * n + (k + 2)) = some (x.q.extractLsb' (8 * k) 8) := by
  rw [read_fbWrite_inside m n x (by omega) (by omega), Nat.add_sub_cancel_left, symbolWord_byte_high x k]

/-- Settles O27: the two halves of the symbol word, byte by byte; the word itself; the other bytes. -/
theorem slotStoreIsLittleEndian : Obligations.SlotStoreIsLittleEndian := fun m n x =>
  ⟨read_fbWrite_low m n x (k := 0) (by decide), read_fbWrite_low m n x (k := 1) (by decide),
    read_fbWrite_high m n x (k := 0) (by decide), read_fbWrite_high m n x (k := 1) (by decide),
    memRead_fbWrite_same m n x, fun _ h => read_fbWrite_other m n x h⟩

/-! ### The sink's reads -/

theorem sinkReadLegal_iff (c : Config) (addr n : Nat) :
    sinkReadLegal c addr n = true ↔ (n = 1 ∨ n = 2 ∨ n = 4) ∧ addr % n = 0 ∧ addr + n ≤ 4 * c.cap := by
  simp [sinkReadLegal, and_assoc, or_assoc]

/-- A draw for a read of `n` bytes is masked to `n` bytes. -/
theorem freeSinkValue_lt (draws n : Nat) : (freeSinkValue draws n).toNat < 2 ^ (8 * n) := by
  have hmask : (freeSinkValue draws n).toNat ≤ (2 ^ (8 * n) - 1) % 2 ^ 32 := by
    rw [freeSinkValue, BitVec.toNat_and, BitVec.toNat_ofNat]
    exact Nat.and_le_right
  have hmod := Nat.mod_le (2 ^ (8 * n) - 1) (2 ^ 32)
  have hpos := Nat.two_pow_pos (8 * n)
  omega

section sinkReads
variable {s : State} {addr n : Nat}

theorem sinkRead_of_not_legal (h : ¬ sinkReadLegal s.cfg addr n = true) :
    sinkRead addr n s = .refused .sinkReadOutsideSpec := by
  rw [sinkRead, if_neg h]

/-- The sink's own buffer: it reads the bytes that stand there. -/
theorem sinkRead_of_sink (h : sinkReadLegal s.cfg addr n = true) (howner : s.owner = .sink) {v : BitVec 32}
    (hv : memRead s.fb addr n = some v) : sinkRead addr n s = .next { s with sinkData := v } := by
  rw [sinkRead, if_pos h]
  simp only [sinkValue, howner, hv]

/-- The block's own buffer: the sink reads a draw. -/
theorem sinkRead_of_block (h : sinkReadLegal s.cfg addr n = true) (howner : s.owner = .block) :
    sinkRead addr n s =
      .next { s with sinkData := freeSinkValue s.draws n, draws := s.draws + 1 } := by
  rw [sinkRead, if_pos h]
  simp only [sinkValue, howner]

/-- The sink owns the buffer only with a complete frame in it (20_memory.md R73), and then every byte of the
buffer can be read. -/
theorem memRead_of_sink (hinv : Inv s) (howner : s.owner = .sink) (h : sinkReadLegal s.cfg addr n = true) :
    ∃ v, memRead s.fb addr n = some v := by
  obtain ⟨-, -, hin⟩ := (sinkReadLegal_iff _ _ _).mp h
  obtain ⟨-, hfull⟩ := hinv.doneFull (hinv.sinkDone howner)
  exact Option.isSome_iff_exists.mp (memRead_isSome fun a _ ha => hfull a (by omega))

end sinkReads

/-- Settles O28: the three answers of `sinkRead`; the invariant gives an owned buffer its bytes. -/
theorem sinkReadsOnlyWhatItOwns : Obligations.SinkReadsOnlyWhatItOwns := by
  intro s addr n hinv allowed
  have hlegal : sinkReadLegal s.cfg addr n = true ↔ allowed := sinkReadLegal_iff s.cfg addr n
  refine ⟨?refused, ?sink, ?block⟩
  case refused => exact fun h => sinkRead_of_not_legal (mt hlegal.mp h)
  case sink =>
    intro h howner
    obtain ⟨v, hv⟩ := memRead_of_sink hinv howner (hlegal.mpr h)
    exact ⟨v, hv, sinkRead_of_sink (hlegal.mpr h) howner hv⟩
  case block =>
    intro h howner
    exact ⟨_, freeSinkValue_lt s.draws n, sinkRead_of_block (hlegal.mpr h) howner⟩

/-! ### The source's cursor over a BUILD -/

theorem legal_build_iff (m : Mode) (exh : Bool) :
    legal .build m exh = true ↔ m = .active ∧ exh = false := by
  simp [legal]

theorem exec_build_of_ready {s : State} (hactive : s.mode = .active) (hexh : s.exh = false) :
    exec .build s = .next (buildFrame s) :=
  exec_of_legal (by simp [hactive]) ((legal_build_iff _ _).mpr ⟨hactive, hexh⟩)

/-- `BYTES` counts a frame's payload without wrapping around (10_state.md R25). -/
theorem payBytes_lt (c : Config) (sel : Scheme) : payBytes c sel < 2 ^ 32 := by
  have hmul := payBytes_mul c sel
  have hsum := payCap_add_headerGroups c sel
  have hle := Nat.le_mul_of_pos_left (payBytes c sel) (groupsPerByte_pos sel)
  have hcap := c.cap_le
  omega

/-- BUILD's cursor has moved past the bytes that it counted (20_memory.md R69). -/
theorem buildFrame_cur (s : State) : (buildFrame s).src.cur = s.src.cur + (buildFrame s).bytes.toNat := by
  obtain ⟨p, r, short, he, -, -, -, hcur, hpay, -⟩ := buildFrame_spec s
  have hlt : p.length < 2 ^ 32 := lt_of_le_of_lt hpay (payBytes_lt _ _)
  simp only [he, hcur, BitVec.toNat_ofNat, Nat.mod_eq_of_lt hlt]

theorem buildFrame_src_bytes (s : State) : (buildFrame s).src.bytes = s.src.bytes := by
  obtain ⟨p, r, short, he, -, -, hbytes, -⟩ := buildFrame_spec s
  rw [he]
  exact hbytes

/-- Of the column "written by" of 10_state.md R20 (`registersHaveOnlyTheirWriters`) what concerns the source
and the buffer's owner. -/
theorem exec_keeps_src_and_owner {i : Instr} {s t : State} (he : exec i s = .next t) :
    (i ≠ .build → t.src = s.src) ∧ (i ≠ .build → i ≠ .closeTx → t.owner = s.owner) := by
  obtain ⟨-, -, -, -, -, -, -, -, -, -, -, -, -, hsrc, howner, -⟩ := registersHaveOnlyTheirWriters i s t he
  refine ⟨fun hb => ?source, fun hb hc => ?owner⟩
  case source =>
    by_contra hne
    exact hb (hsrc (.inr hne))
  case owner =>
    by_contra hne
    exact (howner hne).elim hb hc

theorem exec_src_bytes {i : Instr} {s t : State} (he : exec i s = .next t) : t.src.bytes = s.src.bytes := by
  obtain ⟨-, rfl⟩ | ⟨-, -, rfl⟩ | ⟨-, -, rfl⟩ := exec_cases he
  · rfl
  · rfl
  · by_cases hb : i = .build
    · subst hb
      exact buildFrame_src_bytes s
    · rw [(exec_keeps_src_and_owner he).1 hb]

/-- Settles O52: BUILD counts what it reads, and no other command writes the source. -/
theorem cursorAdvancesByExactlyTheBytesConsumed : Obligations.CursorAdvancesByExactlyTheBytesConsumed := by
  intro i s t he
  refine ⟨exec_src_bytes he, (exec_keeps_src_and_owner he).1, ?_⟩
  rintro rfl hactive hexh
  rw [exec_build_of_ready hactive hexh] at he
  cases he
  exact buildFrame_cur s

end Sys2Proof.Machine
end

section
/-! Command words and their commands (30_encoding.md R91 to R95): a word that decodes is the encoding of what it
decodes to. -/

namespace Sys2Proof

theorem Scheme.bit_ofBit (b : BitVec 1) : (Scheme.ofBit b).bit = b := by
  revert b
  decide

section fields
variable {c : CmdWord} {k : Nat} (hz : zField c = 0#3) (hop : (opField c).toNat = k)
include hz hop

/-- A command word is its four fields side by side (R91). -/
theorem word_fields : word (BitVec.ofNat 4 k) (sField c) (immField c) = c := by
  subst hop
  rw [word, ← hz, BitVec.ofNat_toNat, BitVec.setWidth_eq, opField, zField, sField, immField,
    BitVec.extractLsb'_append_extractLsb'_eq_extractLsb' (show 12 = 9 + 3 from rfl),
    BitVec.extractLsb'_append_extractLsb'_eq_extractLsb' (show 9 = 8 + 1 from rfl),
    BitVec.extractLsb'_append_extractLsb'_eq_extractLsb' (show 8 = 0 + 8 from rfl)]
  exact BitVec.extractLsb'_eq_self

theorem word_of_decodeN {i j : Instr} (h : decodeN c i = .ok j) :
    j = i ∧ word (BitVec.ofNat 4 k) 0#1 0#8 = c := by
  have hword := word_fields hz hop
  unfold decodeN at h
  split at h
  · cases h
  · next hs =>
    split at h
    · cases h
    · next himm =>
      rw [not_not.mp hs, not_not.mp himm] at hword
      cases h
      exact ⟨rfl, hword⟩

theorem word_of_decodeS {mk : Scheme → Instr} {j : Instr} (h : decodeS c mk = .ok j) :
    ∃ sel, j = mk sel ∧ word (BitVec.ofNat 4 k) sel.bit 0#8 = c := by
  have hword := word_fields hz hop
  unfold decodeS at h
  split at h
  · cases h
  · next himm =>
    rw [not_not.mp himm] at hword
    cases h
    exact ⟨_, rfl, by rwa [Scheme.bit_ofBit]⟩

theorem word_of_decodeSB {mk : Scheme → Byte → Instr} {j : Instr} (h : decodeSB c mk = .ok j) :
    ∃ sel b, j = mk sel b ∧ word (BitVec.ofNat 4 k) sel.bit b = c := by
  have hword := word_fields hz hop
  cases h
  exact ⟨_, _, rfl, by rwa [Scheme.bit_ofBit]⟩

end fields

/-- A word that decodes is the encoding of its command: operation by operation of R93's table, each in its
format. -/
theorem encode_of_decode {c : CmdWord} {i : Instr} (h : decode c = .ok i) : encode i = c := by
  unfold decode at h
  split at h
  · cases h
  · next hne =>
    have hz := not_not.mp hne
    split at h
    case h_1 hop => obtain ⟨rfl, rfl⟩ := word_of_decodeN hz hop h; rfl
    case h_2 hop => obtain ⟨sel, bg, rfl, rfl⟩ := word_of_decodeSB hz hop h; rfl
    case h_3 hop => obtain ⟨sel, b, rfl, rfl⟩ := word_of_decodeSB hz hop h; rfl
    case h_4 hop => obtain ⟨rfl, rfl⟩ := word_of_decodeN hz hop h; rfl
    case h_5 hop => obtain ⟨sel, rfl, rfl⟩ := word_of_decodeS hz hop h; rfl
    case h_6 hop => obtain ⟨rfl, rfl⟩ := word_of_decodeN hz hop h; rfl
    case h_7 hop => obtain ⟨rfl, rfl⟩ := word_of_decodeN hz hop h; rfl
    case h_8 => cases h

end Sys2Proof
end

section
/-! The hand-off of the frame buffer (20_memory.md R73). -/

namespace Sys2Proof.Machine

theorem step_of_inputs_cons {s : State} {x : Input} {later : List Input} (h : s.inputs = x :: later) :
    step s = runInput x (withInputs later s) := by
  unfold step
  rw [h]
  rfl

section handOff
variable {s t : State}

/-- A legal BUILD ends with the buffer the sink's, `DONE = 1` and a symbol in every slot (42_frame_packer.md R171). -/
theorem buildFrame_handsOver (s : State) :
    (buildFrame s).owner = .sink ∧ (buildFrame s).done = true ∧
      ∀ a, a < 4 * s.cfg.cap → ((buildFrame s).fb.read a).isSome := by
  obtain ⟨p, r, short, he, -, -, -, -, hpay, -⟩ := buildFrame_spec s
  rw [he]
  refine ⟨rfl, rfl, fun a ha => read_fillSlots_isSome _ _ _ (Nat.zero_le _) ?_⟩
  rwa [frameSymbols_length hpay, Nat.zero_add]

theorem exec_build_owner (he : exec .build s = .next t) (h : ¬ (s.mode = .active ∧ s.exh = false)) :
    t.owner = .block := by
  obtain ⟨-, rfl⟩ | ⟨-, -, rfl⟩ | ⟨-, hl, -⟩ := exec_cases he
  · rfl
  · rfl
  · exact absurd ((legal_build_iff _ _).mp hl) h

theorem exec_closeTx_owner (he : exec .closeTx s = .next t) : t.owner = .block := by
  obtain ⟨-, rfl⟩ | ⟨-, -, rfl⟩ | ⟨-, -, rfl⟩ := exec_cases he
  · rfl
  · rfl
  · rfl

/-- A word that is neither BUILD's nor CLOSE's leaves the buffer whose it is (20_memory.md R73). -/
theorem issueCommand_owner {c : CmdWord} (he : issueCommand c s = .next t) (hb : c ≠ encode .build)
    (hc : c ≠ encode .closeTx) : t.owner = s.owner := by
  obtain ⟨i, hdec, hi⟩ | ⟨e, -, ⟨-, rfl⟩ | ⟨-, rfl⟩⟩ := issueCommand_cases he
  · have hword := encode_of_decode hdec
    exact (exec_keeps_src_and_owner hi).2 (by rintro rfl; exact hb hword.symm) (by rintro rfl; exact hc hword.symm)
  · rfl
  · rfl

/-- An input that is none of the host's BUILD, CLOSE and reset leaves the buffer whose it is (R73). -/
theorem runInput_owner {x : Input} (he : runInput x s = .next t) (hb : x ≠ .command (encode .build))
    (hc : x ≠ .command (encode .closeTx)) (hr : x ≠ .reset) (hd : ∀ c, x ≠ .resetDuring c) :
    t.owner = s.owner := by
  cases x with
  | command c => exact issueCommand_owner he (by rintro rfl; exact hb rfl) (by rintro rfl; exact hc rfl)
  | reset => exact absurd rfl hr
  | resetDuring c => exact absurd rfl (hd c)
  | bindSource src =>
    obtain ⟨-, rfl⟩ := bindSource_cases he
    rfl
  | sinkRead addr n =>
    obtain ⟨v, -, rfl⟩ | ⟨-, rfl⟩ := sinkRead_cases he
    · rfl
    · rfl

theorem runInput_build (s : State) : runInput (.command (encode .build)) s = exec .build s := rfl

theorem runInput_closeTx (s : State) : runInput (.command (encode .closeTx)) s = exec .closeTx s := rfl

end handOff

/-- Settles O59: input by input; BUILD apart by whether it is legal. -/
theorem sinkOwnsFromBuildToTheNextBuildCloseOrReset :
    Obligations.SinkOwnsFromBuildToTheNextBuildCloseOrReset := by
  intro s t x later hin hstep
  rw [step_of_inputs_cons hin] at hstep
  refine ⟨?legalBuild, ?otherBuild, ?close, ?reset, ?resetDuring, ?other⟩
  case legalBuild =>
    rintro rfl hactive hexh
    rw [runInput_build, exec_build_of_ready (s := withInputs later s) hactive hexh] at hstep
    cases hstep
    exact buildFrame_handsOver (withInputs later s)
  case otherBuild =>
    rintro rfl hnot
    exact exec_build_owner hstep hnot
  case close =>
    rintro rfl
    exact exec_closeTx_owner hstep
  case reset =>
    rintro rfl
    cases hstep
    rfl
  case resetDuring =>
    rintro c rfl
    cases hstep
    rfl
  case other => exact runInput_owner (s := withInputs later s) hstep

end Sys2Proof.Machine
end

section
/-! The words of R93's table (30_encoding.md R91 to R95): the decoder undoes the encoder, and a word decodes exactly
when it carries the pattern of a row. -/

namespace Sys2Proof

@[simp] theorem Scheme.ofBit_bit (sel : Scheme) : Scheme.ofBit sel.bit = sel := by
  cases sel <;> rfl

section fieldsOfWord
variable (op : BitVec 4) (s : BitVec 1) (imm : Byte)

@[simp] theorem opField_word : opField (word op s imm) = op :=
  calc (op ++ 0#3 ++ s ++ imm).extractLsb' 12 4
    _ = (op ++ 0#3 ++ s).extractLsb' 4 4 := BitVec.extractLsb'_append_eq_of_le (by decide)
    _ = (op ++ 0#3).extractLsb' 3 4 := BitVec.extractLsb'_append_eq_of_le (by decide)
    _ = op := BitVec.extractLsb'_append_eq_left

@[simp] theorem zField_word : zField (word op s imm) = 0#3 :=
  calc (op ++ 0#3 ++ s ++ imm).extractLsb' 9 3
    _ = (op ++ 0#3 ++ s).extractLsb' 1 3 := BitVec.extractLsb'_append_eq_of_le (by decide)
    _ = (op ++ 0#3).extractLsb' 0 3 := BitVec.extractLsb'_append_eq_of_le (by decide)
    _ = 0#3 := BitVec.extractLsb'_append_eq_right

@[simp] theorem sField_word : sField (word op s imm) = s :=
  calc (op ++ 0#3 ++ s ++ imm).extractLsb' 8 1
    _ = (op ++ 0#3 ++ s).extractLsb' 0 1 := BitVec.extractLsb'_append_eq_of_le (by decide)
    _ = s := BitVec.extractLsb'_append_eq_right

@[simp] theorem immField_word : immField (word op s imm) = imm := BitVec.extractLsb'_append_eq_right

end fieldsOfWord

section formats
variable (op : BitVec 4) (sel : Scheme) (imm : Byte)

@[simp] theorem decodeN_word (i : Instr) : decodeN (word op 0#1 0#8) i = .ok i := by
  simp [decodeN]

@[simp] theorem decodeS_word (mk : Scheme → Instr) : decodeS (word op sel.bit 0#8) mk = .ok (mk sel) := by
  simp [decodeS]

@[simp] theorem decodeSB_word (mk : Scheme → Byte → Instr) :
    decodeSB (word op sel.bit imm) mk = .ok (mk sel imm) := by
  simp [decodeSB]

end formats

/-- The decoder undoes the encoder: it finds the row by `op` and the operands by the row's format (R91, R93). -/
theorem decode_encode (i : Instr) : decode (encode i) = .ok i := by
  cases i <;> simp [encode, decode]

theorem encode_injective : Function.Injective encode := fun i j h => by
  have hok := congrArg decode h
  rw [decode_encode, decode_encode] at hok
  exact Except.ok.inj hok

/-- The legal words are the encodings of the commands. -/
theorem decode_eq_ok_iff {c : CmdWord} {i : Instr} : decode c = .ok i ↔ encode i = c :=
  ⟨encode_of_decode, fun h => h ▸ decode_encode i⟩

/-- Settles O3: one direction format by format, the other from the four fields that make up a word. -/
theorem encodeAndDecodeAgree : Obligations.EncodeAndDecodeAgree :=
  ⟨decode_encode, fun _ _ => encode_of_decode⟩

/-- Settles O7: a legal word is the encoding of its command; an illegal one shows its fields. -/
theorem sampleWordsDecode : Obligations.SampleWordsDecode :=
  ⟨decode_encode .nop, decode_encode (.lookup .qpsk 1#8), decode_encode (.lookup .qam16 11#8),
    decode_encode (.xload .qpsk 0x1B#8), decode_encode .xnext, decode_encode (.openTx .qpsk),
    decode_encode (.openTx .qam16), decode_encode .build, decode_encode .closeTx, rfl, rfl, rfl, rfl⟩

/-! ### Masks and matches -/

theorem encode_and_rowMask (i : Instr) : encode i &&& rowMask i = rowMatch i := by
  cases i with
  | nop => exact Laws.RowWords.nop
  | lookup sel bg => exact Laws.RowWords.lookup sel bg
  | xload sel b => exact Laws.RowWords.xload sel b
  | xnext => exact Laws.RowWords.xnext
  | openTx sel => exact Laws.RowWords.openTx sel
  | build => exact Laws.RowWords.build
  | closeTx => exact Laws.RowWords.closeTx

/-- The command of the row of `j` whose operands are the fields of the word `c` (R91, R92). -/
def Instr.withFieldsOf (c : CmdWord) : Instr → Instr
  | .nop => .nop
  | .lookup _ _ => .lookup (Scheme.ofBit (sField c)) (immField c)
  | .xload _ _ => .xload (Scheme.ofBit (sField c)) (immField c)
  | .xnext => .xnext
  | .openTx _ => .openTx (Scheme.ofBit (sField c))
  | .build => .build
  | .closeTx => .closeTx

@[simp] theorem rowMatch_withFieldsOf (c : CmdWord) (j : Instr) : rowMatch (j.withFieldsOf c) = rowMatch j := by
  cases j <;> rfl

theorem opField_and (c d : CmdWord) : opField (c &&& d) = opField c &&& opField d := BitVec.extractLsb'_and

theorem zField_and (c d : CmdWord) : zField (c &&& d) = zField c &&& zField d := BitVec.extractLsb'_and

theorem immField_and (c d : CmdWord) : immField (c &&& d) = immField c &&& immField d := BitVec.extractLsb'_and

/-- Every mask of R93's table holds the whole field `op`. -/
@[simp] theorem opField_rowMask (j : Instr) : opField (rowMask j) = BitVec.allOnes 4 := by
  cases j <;> simp [rowMask, opField]

/-- Every mask of R93's table holds the whole field `z`. -/
@[simp] theorem zField_rowMask (j : Instr) : zField (rowMask j) = BitVec.allOnes 3 := by
  cases j <;> simp [rowMask, zField]

/-- The mask of format S holds the whole field `imm8`. -/
theorem immField_rowMask_openTx (sel : Scheme) : immField (rowMask (.openTx sel)) = BitVec.allOnes 8 := by
  simp [rowMask, immField]

@[simp] theorem zField_rowMatch (j : Instr) : zField (rowMatch j) = 0#3 := by
  cases j <;> simp [rowMatch, zField]

section pattern
variable {c : CmdWord} {j : Instr} (h : c &&& rowMask j = rowMatch j)
include h

theorem opField_of_pattern : opField c = opField (rowMatch j) := by
  rw [← h, opField_and, opField_rowMask, BitVec.and_allOnes]

theorem zField_of_pattern : zField c = 0#3 := by
  rw [← zField_rowMatch j, ← h, zField_and, zField_rowMask, BitVec.and_allOnes]

/-- A word with the pattern of a row is the encoding of the row's command with the word's own operands: format SB
leaves `s` and `imm8` to the word, format S leaves it `s`, and format N nothing (R91). -/
theorem encode_withFieldsOf : encode (j.withFieldsOf c) = c := by
  have hword : word (opField (rowMatch j)) (sField c) (immField c) = c := by
    rw [← opField_of_pattern h]
    simpa using word_fields (zField_of_pattern h) rfl
  cases j with
  | lookup | xload => simpa [Instr.withFieldsOf, encode, Scheme.bit_ofBit, rowMatch, opField] using hword
  | openTx sel =>
    have himm : immField c = 0#8 := by
      rw [← BitVec.and_allOnes (x := immField c), ← immField_rowMask_openTx sel, ← immField_and, h]
      simp [rowMatch, immField]
    simpa [Instr.withFieldsOf, encode, Scheme.bit_ofBit, rowMatch, opField, himm] using hword
  | nop | xnext | build | closeTx => exact (BitVec.and_allOnes.symm.trans h).symm

theorem decode_of_pattern : decode c = .ok (j.withFieldsOf c) := decode_eq_ok_iff.mpr (encode_withFieldsOf h)

end pattern

/-- Settles O4: two rows that share a word share what it decodes to, and so are one row. -/
theorem decodeFollowsThePatternTable : Obligations.DecodeFollowsThePatternTable := by
  refine ⟨fun c i h => ?_, fun c j h => ⟨_, decode_of_pattern h, rowMatch_withFieldsOf c j⟩,
    fun c i j hi hj => ?_⟩
  · rw [← encode_of_decode h]
    exact encode_and_rowMask i
  · have hsame : i.withFieldsOf c = j.withFieldsOf c :=
      Except.ok.inj ((decode_of_pattern hi).symm.trans (decode_of_pattern hj))
    rw [← rowMatch_withFieldsOf c i, hsame, rowMatch_withFieldsOf]

/-! ### The legal words counted -/

def allSchemes : List Scheme := [.qpsk, .qam16]

def allBytes : List Byte := (List.finRange (2 ^ 8)).map BitVec.ofFin

/-- The operands of format SB (R91). -/
def allOperands : List (Scheme × Byte) := allSchemes ×ˢ allBytes

/-- Every command: format N, format S, format SB. -/
def allCommands : List Instr :=
  [.nop, .xnext, .build, .closeTx] ++ allSchemes.map .openTx ++
    (allOperands.map (Function.uncurry .lookup) ++ allOperands.map (Function.uncurry .xload))

theorem mem_allSchemes (sel : Scheme) : sel ∈ allSchemes := by cases sel <;> decide

theorem mem_allOperands (sel : Scheme) (b : Byte) : (sel, b) ∈ allOperands :=
  List.mem_product.mpr ⟨mem_allSchemes sel, List.mem_map.mpr ⟨b.toFin, List.mem_finRange _, rfl⟩⟩

theorem mem_allCommands (i : Instr) : i ∈ allCommands := by
  cases i <;> simp [allCommands, mem_allSchemes, mem_allOperands]

theorem allOperands_length : allOperands.length = 512 := by
  simp [allOperands, allSchemes, allBytes]

theorem allCommands_length : allCommands.length = 1030 := by
  simp [allCommands, allOperands_length, allSchemes]

theorem allOperands_nodup : allOperands.Nodup := by
  have hbytes : allBytes.Nodup := (List.nodup_finRange _).map fun _ _ h => congrArg BitVec.toFin h
  exact List.Nodup.product (by decide) hbytes

theorem allCommands_nodup : allCommands.Nodup := by
  have hfew : ([Instr.nop, .xnext, .build, .closeTx] ++ allSchemes.map Instr.openTx).Nodup := by decide
  have hlookup : (allOperands.map (Function.uncurry Instr.lookup)).Nodup :=
    allOperands_nodup.map (Function.Injective2.uncurry fun _ _ _ _ => Instr.lookup.inj)
  have hxload : (allOperands.map (Function.uncurry Instr.xload)).Nodup :=
    allOperands_nodup.map (Function.Injective2.uncurry fun _ _ _ _ => Instr.xload.inj)
  have hdisj : List.Disjoint (allOperands.map (Function.uncurry Instr.lookup))
      (allOperands.map (Function.uncurry Instr.xload)) := by
    intro i hl hx
    obtain ⟨o, -, rfl⟩ := List.mem_map.mp hl
    obtain ⟨o', -, ho⟩ := List.mem_map.mp hx
    cases ho
  exact hfew.append (hlookup.append hxload hdisj) (by simp [List.disjoint_left])

/-- Settles O5: the encoder lists the legal words, each once. -/
theorem exactlyOneThousandThirtyWordsAreLegal : Obligations.ExactlyOneThousandThirtyWordsAreLegal := by
  refine ⟨allCommands.map encode, allCommands_nodup.map encode_injective, ?_, fun c => ?_⟩
  · rw [List.length_map, allCommands_length]
  · simp only [List.mem_map, mem_allCommands, true_and, decode_eq_ok_iff]

end Sys2Proof
end

section
/-! Programs (30_encoding.md R104, R105): commands executed one after another, and taken one by one from the port. -/

namespace Sys2Proof.Machine

/-! ### Taking a command from the port -/

theorem issueCommand_of_decode {c : CmdWord} {i : Instr} (h : decode c = .ok i) (s : State) :
    issueCommand c s = exec i s := by
  rw [issueCommand, h]

theorem step_of_inputs_nil {s : State} (h : s.inputs = []) : step s = .next s := by
  rw [step, h]

theorem step_of_command {s : State} {c : CmdWord} {later : List Input} {i : Instr}
    (h : s.inputs = .command c :: later) (hdec : decode c = .ok i) : step s = exec i (withInputs later s) :=
  (step_of_inputs_cons h).trans (issueCommand_of_decode hdec _)

theorem tableWord_toNat (c : CmdWord) : tableWord 16 c.toNat = c := by
  rw [tableWord, Nat.mod_eq_of_lt c.isLt, BitVec.ofNat_toNat, BitVec.setWidth_eq]

/-- Settles O55: the presented word is the oldest input, and the probe's word is the encoding itself. -/
theorem stepRunsTheDecodedCommand : Obligations.StepRunsTheDecodedCommand := by
  refine ⟨fun s c later i => step_of_command, fun s => step_of_inputs_nil, fun s i => ?_⟩
  exact step_of_command (s := s.withFetchWord 16 (encode i).toNat) rfl
    (by rw [tableWord_toNat, decode_encode])

/-! ### Commands executed in order -/

theorem execAll_cons {i : Instr} {s t : State} (h : exec i s = .next t) (is : List Instr) :
    execAll (i :: is) s = execAll is t := by
  rw [execAll, h]

theorem execAll_append {is : List Instr} {s t : State} (h : execAll is s = .next t) (js : List Instr) :
    execAll (is ++ js) s = execAll js t := by
  induction is generalizing s with
  | nil =>
    cases h
    rfl
  | cons i is ih =>
    have hi := exec_eq i s
    rw [execAll_cons hi] at h
    rw [List.cons_append, execAll_cons hi, ih h]

theorem run_succ_of_step {M : Host.Core} {s t : M.State} (h : M.step s = .next t) (k : Nat) :
    M.run (k + 1) s = M.run k t := by
  rw [Host.Core.run, h]

/-- Commands presented on the port, oldest first, are taken one a step: induction on the commands, each of which
leaves the port alone (R90, R95). -/
theorem run_of_commands (is : List Instr) (later : List Input) (s : State)
    (h : s.inputs = (is.map fun i => .command (encode i)) ++ later) :
    ∃ t, execAll is (withInputs later s) = .next t ∧ Host.Core.run core is.length s = .next t := by
  induction is generalizing s with
  | nil =>
    obtain rfl : s.inputs = later := h
    exact ⟨s, rfl, rfl⟩
  | cons i is ih =>
    have hi := exec_eq i s
    have hstep := (step_of_command h (decode_encode i)).trans (exec_withInputs _ hi)
    obtain ⟨t, hall, hrun⟩ := ih (withInputs _ _) rfl
    exact ⟨t, (execAll_cons (exec_withInputs later hi) is).trans hall,
      (run_succ_of_step (M := core) hstep _).trans hrun⟩

/-- Settles O9: a program's inputs are the words of its assembled commands. -/
theorem programOnThePortRunsInOrder : Obligations.ProgramOnThePortRunsInOrder :=
  fun p later s h => run_of_commands (p.flatMap assemble) later s h

/-! ### SWEEP -/

/-- The state with the symbol `x` in `SYM_I` and `SYM_Q`. -/
def loadSymbol (x : Symbol) (s : State) : State := { s with symI := x.i, symQ := x.q }

theorem asmByteOf_toNat {sel : Scheme} {g : Nat} (h : g < tableSize sel) : (asmByteOf g).toNat = g := by
  refine Nat.mod_eq_of_lt (h.trans ?_)
  cases sel <;> decide

/-- LOOKUP in range (40_symbol_table.md R129): the entry goes to the symbol registers. -/
theorem exec_lookup_of_lt {s : State} (hm : s.mode ≠ .halt) {sel : Scheme} {g : Nat} (hg : g < tableSize sel) :
    exec (.lookup sel (asmByteOf g)) s = .next (loadSymbol (romEntry s.cfg sel (BitVec.ofNat 4 g)) s) := by
  rw [exec_of_legal hm rfl, effectOf, lookupEffect, asmByteOf_toNat hg, symbolAt_of_lt _ _ hg]
  rfl

/-- Looking up the entries 0 to `k` leaves the entry of `k`: each LOOKUP overwrites what the one before loaded. -/
theorem execAll_lookups {s : State} (hm : s.mode ≠ .halt) {sel : Scheme} {k : Nat} (hk : k < tableSize sel) :
    execAll ((List.range (k + 1)).map fun g => .lookup sel (asmByteOf g)) s =
      .next (loadSymbol (romEntry s.cfg sel (BitVec.ofNat 4 k)) s) := by
  induction k with
  | zero => exact execAll_cons (exec_lookup_of_lt hm hk) []
  | succ k ih =>
    rw [List.range_succ, List.map_append, execAll_append (ih (Nat.lt_of_succ_lt hk))]
    exact execAll_cons (exec_lookup_of_lt (s := loadSymbol _ s) hm hk) []

/-- Settles O8: the first `k + 1` commands of SWEEP look up the entries 0 to `k`. -/
theorem sweepLooksUpEveryEntryInOrder : Obligations.SweepLooksUpEveryEntryInOrder := by
  intro n k s _ hm hk
  refine ⟨by simp [assemble], _, symbolAt_of_lt _ _ hk, ?_⟩
  rw [assemble, ← List.map_take, List.take_range, min_eq_left (Nat.succ_le_of_lt hk)]
  exact execAll_lookups hm hk

end Sys2Proof.Machine
end

section
/-! The tables (40_symbol_table.md section 1): the amplitudes as signed integers, and the entries of both tables. -/

namespace Sys2Proof

/-- The multiple of `a` that a 16-QAM level stands for (R122). -/
def Level.coeff : Level → Int
  | .negThree => -3
  | .negOne => -1
  | .posOne => 1
  | .posThree => 3

theorem Level.coeff_ne_zero (l : Level) : l.coeff ≠ 0 := by cases l <;> decide

/-- The levels in rising order. -/
def levelEquiv : Fin 4 ≃ Level where
  toFun := ![.negThree, .negOne, .posOne, .posThree]
  invFun
    | .negThree => 0
    | .negOne => 1
    | .posOne => 2
    | .posThree => 3
  left_inv := by decide
  right_inv l := by cases l <;> rfl

theorem Config.qpskA_bounds (c : Config) : 1 ≤ c.qpskA ∧ c.qpskA ≤ 32767 := by
  obtain ⟨-, -, -, -, hlo, hhi, -⟩ := c.ok
  exact ⟨hlo, hhi⟩

theorem Config.qamA_bounds (c : Config) : 1 ≤ c.qamA ∧ c.qamA ≤ 10922 := by
  obtain ⟨-, -, -, -, -, -, hlo, hhi, -⟩ := c.ok
  exact ⟨hlo, hhi⟩

/-- The pinned entry K2 of R125. -/
theorem Config.pinnedEntry (c : Config) : c.t16[11] = (Level.posOne, Level.negThree) := by
  obtain ⟨-, -, -, -, -, -, -, -, hpin⟩ := c.ok
  exact hpin

end Sys2Proof

namespace Sys2Proof.Machine

/-! ### Amplitudes: within R7(c) all of them fit in 16 bits -/

theorem toInt_pos (c : Config) : (pos c).toInt = c.qpskA := by
  have hA := c.qpskA_bounds
  exact BitVec.toInt_ofInt_eq_self (by decide) (by omega) (by omega)

theorem toInt_neg (c : Config) : (neg c).toInt = -c.qpskA := by
  have hA := c.qpskA_bounds
  exact BitVec.toInt_ofInt_eq_self (by decide) (by omega) (by omega)

theorem levelAmp_eq_ofInt (c : Config) (l : Level) : levelAmp c l = BitVec.ofInt 16 (l.coeff * c.qamA) := by
  cases l <;> simp [levelAmp, Level.coeff]

theorem toInt_levelAmp (c : Config) (l : Level) : (levelAmp c l).toInt = l.coeff * c.qamA := by
  have ha := c.qamA_bounds
  have hfit : -2 ^ 15 ≤ l.coeff * (c.qamA : Int) ∧ l.coeff * (c.qamA : Int) < 2 ^ 15 := by
    cases l <;> simp only [Level.coeff] <;> omega
  obtain ⟨hlo, hhi⟩ := hfit
  rw [levelAmp_eq_ofInt, BitVec.toInt_ofInt_eq_self (by decide) hlo hhi]

theorem pos_ne_zero (c : Config) : pos c ≠ 0#16 := by
  have hA := c.qpskA_bounds
  rw [← BitVec.toInt_ne, toInt_pos, BitVec.toInt_zero]
  omega

theorem neg_ne_zero (c : Config) : neg c ≠ 0#16 := by
  have hA := c.qpskA_bounds
  rw [← BitVec.toInt_ne, toInt_neg, BitVec.toInt_zero]
  omega

theorem levelAmp_ne_zero (c : Config) (l : Level) : levelAmp c l ≠ 0#16 := by
  have ha := c.qamA_bounds
  rw [← BitVec.toInt_ne, toInt_levelAmp, BitVec.toInt_zero]
  exact mul_ne_zero l.coeff_ne_zero (by omega)

/-- A level's amplitude is one of the four numbers of R122. -/
theorem toInt_levelAmp_mem (c : Config) (l : Level) :
    (levelAmp c l).toInt ∈ [-3 * (c.qamA : Int), -(c.qamA : Int), (c.qamA : Int), 3 * (c.qamA : Int)] := by
  rw [toInt_levelAmp]
  cases l <;> simp [Level.coeff]

/-! ### Entries -/

theorem symbolAt_qpsk (c : Config) (g : BitVec 2) : symbolAt c .qpsk g.toNat = some (qpskEntry c g) := by
  have hg : (BitVec.ofNat 4 g.toNat).setWidth 2 = g := by
    rw [BitVec.ofNat_toNat, BitVec.setWidth_setWidth_of_le _ (by decide), BitVec.setWidth_eq]
  rw [symbolAt_of_lt c .qpsk g.isLt, romEntry, hg]

theorem symbolAt_qam16 (c : Config) {g : Nat} (h : g < 16) :
    symbolAt c .qam16 g = some ⟨levelAmp c c.t16[g].1, levelAmp c c.t16[g].2⟩ := by
  have hg : (BitVec.ofNat 4 g).toNat = g := Nat.mod_eq_of_lt h
  simp only [symbolAt_of_lt c .qam16 h, romEntry, qam16Entry, hg]

theorem eq_romEntry_of_symbolAt {c : Config} {s : Scheme} {g : Nat} {x : Symbol} (h : symbolAt c s g = some x) :
    x = romEntry c s (BitVec.ofNat 4 g) := by
  rcases lt_or_ge g (tableSize s) with hlt | hge
  · rw [symbolAt_of_lt c s hlt] at h
    exact (Option.some.inj h).symm
  · rw [(symbolAt_eq_none c s g).mpr hge] at h
    cases h

/-- No table has 0 as the I of an entry: a sign gives `±QPSK_A`, a level an odd multiple of `QAM_A`. -/
theorem romEntry_i_ne_zero (c : Config) (s : Scheme) (g : Group) : (romEntry c s g).i ≠ 0#16 := by
  cases s with
  | qpsk =>
    simp only [romEntry, qpskEntry]
    split
    · exact neg_ne_zero c
    · exact pos_ne_zero c
  | qam16 => exact levelAmp_ne_zero c _

theorem romEntry_ne_zero (c : Config) (s : Scheme) (g : Group) : romEntry c s g ≠ ⟨0#16, 0#16⟩ := fun h =>
  romEntry_i_ne_zero c s g (congrArg Symbol.i h)

theorem padSymbol_qam16 (c : Config) :
    padSymbol c .qam16 = ⟨levelAmp c c.t16[0].1, levelAmp c c.t16[0].2⟩ := rfl

/-- Settles O10: the general entry, and the four groups put into it. -/
theorem qpskTableIsSignPerBit : Obligations.QpskTableIsSignPerBit := fun c =>
  ⟨toInt_pos c, toInt_neg c, symbolAt_qpsk c 0b00#2, symbolAt_qpsk c 0b01#2, symbolAt_qpsk c 0b10#2,
    symbolAt_qpsk c 0b11#2, symbolAt_qpsk c⟩

/-- Settles O11: an entry is a pair of levels' amplitudes. -/
theorem sixteenQamAmplitudesAreTheFourLevels : Obligations.SixteenQamAmplitudesAreTheFourLevels :=
  fun c _ hg => ⟨_, symbolAt_qam16 c hg, toInt_levelAmp_mem c _, toInt_levelAmp_mem c _⟩

/-- Settles O12: entry 11 of every configuration's table is the pair of levels `(+a, −3a)`. -/
theorem sixteenQamPinnedEntry : Obligations.SixteenQamPinnedEntry := by
  intro c
  refine ⟨_, symbolAt_qam16 c (by decide), ?_⟩
  simp only [toInt_levelAmp, c.pinnedEntry, Level.coeff, one_mul, and_self]

/-- Settles O15: the entries of both tables by `romEntry_ne_zero`; the pad symbol is the entry of group 0. -/
theorem noTableEntryIsTheZeroPair : Obligations.NoTableEntryIsTheZeroPair := by
  intro c
  refine ⟨fun s g x hx => ?entries, fun s => ⟨romEntry_ne_zero c s 0#4, ?padIsEntry⟩, rfl, padSymbol_qam16 c,
    fun hgray => ?grayPad⟩
  case entries =>
    rw [eq_romEntry_of_symbolAt hx]
    exact romEntry_ne_zero c s _
  case padIsEntry => exact symbolAt_of_lt c s (Nat.two_pow_pos _)
  case grayPad =>
    simp only [padSymbol_qam16, toInt_levelAmp, hgray]
    exact ⟨rfl, rfl⟩

end Sys2Proof.Machine
end

section
/-! The constraints K2, K3 and K4 on the 16-QAM table (40_symbol_table.md R124, R125, R127). -/

namespace Sys2Proof

/-- The bit-group with the given halves (R124). -/
def groupOfHalves (hi lo : Fin 4) : Fin 16 := ⟨4 * hi.val + lo.val, by omega⟩

/-- Four distinct groups whose entries a level function `f` tells apart make it injective, and so a bijection. -/
theorem Params.K4.bijective_of_groups {p : Params} (hK4 : p.K4) {f : Fin 4 → Level} {e : Fin 4 → Fin 16}
    (he : Function.Injective e) (hf : ∀ x y, f x = f y → p.t16[e x] = p.t16[e y]) : Function.Bijective f := by
  have hinj : Function.Injective f := fun x y hxy => he (hK4 _ _ (hf x y hxy))
  exact ⟨hinj, (Finite.injective_iff_surjective_of_equiv levelEquiv).mp hinj⟩

/-- Where an entry combines a level of the low half with a level of the high half, whichever of the two is I,
the groups with high half 0 show the one function bijective and those with low half 0 the other. -/
theorem Params.K4.bijective_of_halves {p : Params} (hK4 : p.K4) {fLo fHi : Fin 4 → Level}
    {pair : Level → Level → Level × Level}
    (hT : ∀ hi lo : Fin 4, p.t16[groupOfHalves hi lo] = pair (fLo lo) (fHi hi)) :
    Function.Bijective fLo ∧ Function.Bijective fHi := by
  constructor
  · refine hK4.bijective_of_groups (e := fun lo => groupOfHalves 0 lo) (by decide) fun x y hxy => ?_
    rw [hT, hT, hxy]
  · refine hK4.bijective_of_groups (e := fun hi => groupOfHalves hi 0) (by decide) fun x y hxy => ?_
    rw [hT, hT, hxy]

/-- Settles O13: the pinned entry is that of the halves `0b10` and `0b11`; the bijections, for either form, are
`Params.K4.bijective_of_halves`. -/
theorem axisFunctionsUnderTheTableAssumptions : Obligations.AxisFunctionsUnderTheTableAssumptions := by
  refine fun c fI fQ => ⟨fun hLoI => ?loI, fun hHiI => ?hiI⟩
  case loI =>
    obtain ⟨hI, hQ⟩ := Prod.mk.inj ((hLoI 0b10 0b11).symm.trans c.pinnedEntry)
    exact ⟨hI, hQ, fun hK4 => hK4.bijective_of_halves (pair := fun i q => (i, q)) hLoI⟩
  case hiI =>
    obtain ⟨hI, hQ⟩ := Prod.mk.inj ((hHiI 0b10 0b11).symm.trans c.pinnedEntry)
    exact ⟨hI, hQ, fun hK4 => (hK4.bijective_of_halves (pair := fun q i => (i, q)) hHiI).symm⟩

/-- T16_GRAY is of form LO-I (R127): the low half of the group drives I, the high half Q. -/
theorem t16Gray_of_halves : ∀ hi lo : Fin 4, t16Gray[4 * hi.val + lo.val] =
    (![Level.negThree, .negOne, .posThree, .posOne] lo, ![Level.posThree, .posOne, .negThree, .negOne] hi) := by
  decide

theorem t16Gray_distinct : ∀ g h : Fin 16, t16Gray[g] = t16Gray[h] → g = h := by decide

/-- Settles O14: K2 by the table's entry 11, K3 in the form LO-I, K4 by the sixteen entries. -/
theorem grayTableMeetsTheTableConstraints : Obligations.GrayTableMeetsTheTableConstraints := by
  intro p hp
  simp only [Params.K3, Params.K4, hp]
  exact ⟨rfl, ⟨_, _, .inl t16Gray_of_halves⟩, t16Gray_distinct⟩

end Sys2Proof
end

section
/-! The bit-groups that index the tables (40_symbol_table.md R131), and LOOKUP in range (R128, R129). -/

namespace Sys2Proof.Machine

/-- Every extracted group comes out of the shifter, whose mask keeps it below `N(s)`. -/
theorem toNat_lt_tableSize_of_mem_groups {s : Scheme} {bytes : List Byte} {g : Group} (h : g ∈ groups s bytes) :
    g.toNat < tableSize s := by
  obtain ⟨b, -, hb⟩ := List.mem_flatMap.mp h
  obtain ⟨k, -, rfl⟩ := List.mem_map.mp hb
  exact shiftMask_lt s b _

theorem symbolAt_toNat (c : Config) {s : Scheme} {g : Group} (h : g.toNat < tableSize s) :
    symbolAt c s g.toNat = some (romEntry c s g) := by
  rw [symbolAt_of_lt c s h, BitVec.ofNat_toNat, BitVec.setWidth_eq]

/-- Settles O22: a group in range has the table's entry. -/
theorem extractedGroupsAreInRange : Obligations.ExtractedGroupsAreInRange := fun c _ _ _ hg =>
  have hlt := toNat_lt_tableSize_of_mem_groups hg
  ⟨hlt, symbolAt_toNat c hlt⟩

/-- LOOKUP of a byte in range, as `exec_lookup_of_lt` says it for a byte written as a number. -/
theorem exec_lookup {s : State} (hm : s.mode ≠ .halt) {sel : Scheme} {bg : Byte} (hbg : bg.toNat < tableSize sel) :
    exec (.lookup sel bg) s = .next (loadSymbol (romEntry s.cfg sel (BitVec.ofNat 4 bg.toNat)) s) := by
  have hbyte : asmByteOf bg.toNat = bg := by rw [asmByteOf, BitVec.ofNat_toNat, BitVec.setWidth_eq]
  simpa only [hbyte] using exec_lookup_of_lt hm hbg

/-- Settles O16: the entry that `T` gives is the one LOOKUP loads. -/
theorem lookupLoadsTheSymbolRegisters : Obligations.LookupLoadsTheSymbolRegisters := fun _ _ s hm hbg =>
  ⟨_, symbolAt_of_lt s.cfg _ hbg, exec_lookup hm hbg⟩

/-- Settles O18: the loaded entry depends on the configuration alone; loading it again writes the same values. -/
theorem lookupIsPure : Obligations.LookupIsPure := by
  intro sel bg s u hs hu hcfg hbg
  refine ⟨_, _, exec_lookup hs hbg, exec_lookup hu hbg, ?symI, ?symQ,
    exec_lookup (s := loadSymbol _ s) hs hbg⟩
  case symI => simp only [loadSymbol, hcfg]
  case symQ => simp only [loadSymbol, hcfg]

end Sys2Proof.Machine
end

section
/-! The extraction function (41_bit_extractor.md R141 to R143): each group is a bit field of its byte, and the groups of
a byte list determine the bytes. -/

namespace Sys2Proof.Machine

/-- The shift and the mask cut out one field of the byte: bits `k · w(s)` to `k · w(s) + w(s) − 1`. -/
theorem shiftMask_eq_extractLsb' (s : Scheme) (b : Byte) (k : Nat) :
    shiftMask s b k = (b.extractLsb' (k * width s) (width s)).setWidth 4 := by
  have hmask : (groupMask s).toNat = 2 ^ width s - 1 := by cases s <;> rfl
  apply BitVec.eq_of_toNat_eq
  rw [shiftMask, BitVec.toNat_setWidth, BitVec.toNat_and, hmask, Nat.and_two_pow_sub_one_eq_mod,
    BitVec.toNat_ushiftRight, BitVec.toNat_setWidth, BitVec.extractLsb'_toNat]

theorem group_eq_extractLsb' (s : Scheme) (b : Byte) (g : Nat) :
    group s b g = (b.extractLsb' ((groupsPerByte s - 1 - g) * width s) (width s)).setWidth 4 :=
  shiftMask_eq_extractLsb' s b _

/-- No bit of a field is lost in the four bits of a group. -/
theorem setWidth_group (s : Scheme) (b : Byte) (g : Nat) :
    (group s b g).setWidth (width s) = b.extractLsb' ((groupsPerByte s - 1 - g) * width s) (width s) := by
  have hwidth : width s ≤ 4 := by cases s <;> decide
  rw [group_eq_extractLsb', BitVec.setWidth_setWidth_of_le _ hwidth, BitVec.setWidth_eq]

theorem group_qam16 (b : Byte) (g : Nat) : group .qam16 b g = b.extractLsb' ((1 - g) * 4) 4 :=
  (BitVec.setWidth_eq _).symm.trans (setWidth_group .qam16 b g)

/-! ### The groups of a byte list -/

/-- Position `k · gpb(s) + g` lies in the groups of byte `k`: induction on the bytes, each of which gives `gpb(s)`. -/
theorem groups_getElem? (s : Scheme) (bytes : List Byte) {k g : Nat} (hk : k < bytes.length)
    (hg : g < groupsPerByte s) : (groups s bytes)[k * groupsPerByte s + g]? = some (group s bytes[k] g) := by
  induction bytes generalizing k with
  | nil => exact absurd hk (Nat.not_lt_zero k)
  | cons b bs ih =>
    rw [groups_cons]
    cases k with
    | zero =>
      rw [Nat.zero_mul, Nat.zero_add, List.getElem?_append_left (by rwa [byteGroups_length])]
      simp [byteGroups, hg]
    | succ k =>
      have hpos : (k + 1) * groupsPerByte s + g = (byteGroups s b).length + (k * groupsPerByte s + g) := by
        rw [byteGroups_length]
        ring
      rw [hpos, List.getElem?_append_right (Nat.le_add_right _ _), Nat.add_sub_cancel_left]
      exact ih (Nat.lt_of_succ_lt_succ hk)

theorem groups_singleton (s : Scheme) (b : Byte) : groups s [b] = byteGroups s b := List.flatMap_singleton _ _

/-- Settles O20, with the factors in the order of R142. -/
theorem groupCountIsBytesTimesGroupsPerByte : Obligations.GroupCountIsBytesTimesGroupsPerByte := fun s bytes =>
  (groups_length_eq s bytes).trans (Nat.mul_comm _ _)

/-- Settles O19: the position gives the byte and the shift, and the fields of one byte are the shifter's. -/
theorem groupsFollowTheShiftFormula : Obligations.GroupsFollowTheShiftFormula := by
  refine ⟨fun s bytes k g hk hg => groups_getElem? s bytes hk hg, fun b => ⟨?qpsk, ?qam16⟩⟩
  case qpsk =>
    rw [groups_singleton, byteGroups_qpsk]
    simp only [shiftMask_eq_extractLsb', width_qpsk]
  case qam16 =>
    rw [groups_singleton, byteGroups_qam16]
    simp only [shiftMask_eq_extractLsb', width_qam16, BitVec.setWidth_eq]

/-! ### Reassembly -/

/-- The four fields of two bits stand side by side (R143). -/
theorem append_groups_qpsk (b : Byte) :
    (group .qpsk b 0).setWidth 2 ++ (group .qpsk b 1).setWidth 2 ++ (group .qpsk b 2).setWidth 2 ++
      (group .qpsk b 3).setWidth 2 = b := by
  have hfield : ∀ g, (group .qpsk b g).setWidth 2 = b.extractLsb' ((3 - g) * 2) 2 := setWidth_group .qpsk b
  simp only [hfield]
  rw [BitVec.extractLsb'_append_extractLsb'_eq_extractLsb' (by rfl),
    BitVec.extractLsb'_append_extractLsb'_eq_extractLsb' (by rfl),
    BitVec.extractLsb'_append_extractLsb'_eq_extractLsb' (by rfl)]
  exact BitVec.extractLsb'_eq_self

/-- The two fields of four bits stand side by side (R143). -/
theorem append_groups_qam16 (b : Byte) : group .qam16 b 0 ++ group .qam16 b 1 = b := by
  rw [group_qam16, group_qam16, BitVec.extractLsb'_append_extractLsb'_eq_extractLsb' (by rfl)]
  exact BitVec.extractLsb'_eq_self

/-- Reassembly gives each byte back from its groups. -/
theorem byteGroups_injective (s : Scheme) : Function.Injective (byteGroups s) := by
  intro b c h
  have hgroup : ∀ g < groupsPerByte s, group s b g = group s c g := fun g hg =>
    List.map_inj_left.mp h g (List.mem_range.mpr hg)
  cases s with
  | qpsk =>
    rw [← append_groups_qpsk b, ← append_groups_qpsk c, hgroup 0 (by decide), hgroup 1 (by decide),
      hgroup 2 (by decide), hgroup 3 (by decide)]
  | qam16 =>
    rw [← append_groups_qam16 b, ← append_groups_qam16 c, hgroup 0 (by decide), hgroup 1 (by decide)]

/-- Every byte gives groups, `gpb(s)` of them, so the groups are cut back into bytes in one way. -/
theorem groups_injective (s : Scheme) : Function.Injective (groups s) := by
  have hcons : ∀ b bs, groups s (b :: bs) ≠ [] := fun b bs =>
    List.ne_nil_of_length_pos (by
      rw [groups_length_eq]
      exact Nat.mul_pos (groupsPerByte_pos s) (Nat.succ_pos _))
  intro x
  induction x with
  | nil =>
    rintro (_ | ⟨c, cs⟩) h
    · rfl
    · exact absurd h.symm (hcons c cs)
  | cons b bs ih =>
    rintro (_ | ⟨c, cs⟩) h
    · exact absurd h (hcons b bs)
    · have hlen : (byteGroups s b).length = (byteGroups s c).length := by simp only [byteGroups_length]
      obtain ⟨hhead, htail⟩ := List.append_inj h hlen
      rw [byteGroups_injective s hhead, ih htail]

/-- Settles O21: reassembly, injectivity from it, and the law of concatenation. -/
theorem groupsReassembleToTheirBytes : Obligations.GroupsReassembleToTheirBytes :=
  ⟨fun b => ⟨append_groups_qpsk b, append_groups_qam16 b⟩, fun s _ _ h => groups_injective s h, groups_append⟩

end Sys2Proof.Machine
end

section
/-! The extractor's commands in IDLE (41_bit_extractor.md R145 to R147): XLOAD, XNEXT, and the XNEXT that follow an XLOAD. -/

namespace Sys2Proof.Machine

/-! ### One command -/

section command
variable {s : State}

theorem exec_xload (hidle : s.mode = .idle) (sel : Scheme) (b : Byte) :
    exec (.xload sel b) s = .next (loadByte sel b s) :=
  exec_of_legal (by simp [hidle]) (by simp [legal, hidle])

theorem exec_xnext (hidle : s.mode = .idle) : exec .xnext s = .next (nextEffect s) :=
  exec_of_legal (by simp [hidle]) (by simp [legal, hidle])

theorem nextEffect_of_empty (h : s.xrem = 0#3) : nextEffect s = { s with xempty := true } := if_pos h

theorem nextEffect_of_ne (h : s.xrem ≠ 0#3) : nextEffect s = takeGroup s := if_neg h

@[simp] theorem nextEffect_mode (s : State) : (nextEffect s).mode = s.mode := by
  by_cases h : s.xrem = 0#3
  · rw [nextEffect_of_empty h]
  · rw [nextEffect_of_ne h, takeGroup_mode]

end command

/-- Settles O23: the count `gpb(s)` is 4 or 2. -/
theorem xloadStartsAFreshSequence : Obligations.XloadStartsAFreshSequence := by
  intro sel b s hidle
  rw [exec_xload hidle]
  cases sel <;> rfl

/-- Settles O24: the two branches of XNEXT's effect. -/
theorem xnextDeliversOrReportsEmpty : Obligations.XnextDeliversOrReportsEmpty := by
  intro s hidle
  rw [exec_xnext hidle]
  exact ⟨fun h => by rw [nextEffect_of_empty h], fun h => by rw [nextEffect_of_ne h]; rfl⟩

/-! ### The XNEXT after an XLOAD -/

theorem execAll_replicate_xnext (n : Nat) {s : State} (hidle : s.mode = .idle) :
    execAll (List.replicate n .xnext) s = .next (nextEffect^[n] s) := by
  induction n generalizing s with
  | zero => rfl
  | succ n ih =>
    rw [List.replicate_succ, execAll_cons (exec_xnext hidle), ih ((nextEffect_mode s).trans hidle),
      Function.iterate_succ_apply]

theorem execAll_xload_xnext (sel : Scheme) (b : Byte) (n : Nat) {s : State} (hidle : s.mode = .idle) :
    execAll (.xload sel b :: List.replicate n .xnext) s = .next (nextEffect^[n] (loadByte sel b s)) :=
  (execAll_cons (exec_xload hidle sel b) _).trans (execAll_replicate_xnext n hidle)

/-- The state `s` with the byte `b` loaded, `n` of its groups delivered, and `last` in `BG`. -/
def partway (sel : Scheme) (b : Byte) (n : Nat) (last : Group) (s : State) : State :=
  { loadByte sel b s with bg := last, xrem := BitVec.ofNat 3 (groupsPerByte sel - n) }

/-- XNEXT with a group still to come (R146, R148): the count left is also the shifter's amount, plus one. -/
theorem nextEffect_partway {sel : Scheme} {n : Nat} (hn : n < groupsPerByte sel) (b : Byte) (last : Group)
    (s : State) : nextEffect (partway sel b n last s) = partway sel b (n + 1) (group sel b n) s := by
  have hle := groupsPerByte_le sel
  have hrem : (partway sel b n last s).xrem.toNat = groupsPerByte sel - n := Nat.mod_eq_of_lt (by omega)
  have hne : (partway sel b n last s).xrem ≠ 0#3 := fun h => by
    rw [h, BitVec.toNat_ofNat] at hrem
    omega
  have hbg : nextGroup (partway sel b n last s) = group sel b n := by
    rw [nextGroup, hrem, Nat.sub_right_comm]
    rfl
  have hcount : (partway sel b n last s).xrem - 1#3 = BitVec.ofNat 3 (groupsPerByte sel - (n + 1)) := by
    apply BitVec.eq_of_toNat_eq
    rw [← takeGroup_xrem, takeGroup_xrem_toNat hne, hrem, BitVec.toNat_ofNat, Nat.mod_eq_of_lt (by omega),
      Nat.sub_sub]
  rw [nextEffect_of_ne hne, takeGroup, hbg, hcount]
  rfl

/-- The XNEXT that follow a load deliver the groups in order, up to the last. -/
theorem iterate_nextEffect_loadByte {sel : Scheme} {j : Nat} (hj : j < groupsPerByte sel) (b : Byte) (s : State) :
    nextEffect^[j + 1] (loadByte sel b s) = partway sel b (j + 1) (group sel b j) s := by
  induction j with
  | zero => exact nextEffect_partway hj b s.bg s
  | succ j ih =>
    rw [Function.iterate_succ_apply', ih (Nat.lt_of_succ_lt hj)]
    exact nextEffect_partway hj b _ s

theorem iterate_nextEffect_all (sel : Scheme) (b : Byte) (s : State) :
    nextEffect^[groupsPerByte sel] (loadByte sel b s) =
      partway sel b (groupsPerByte sel) (group sel b (groupsPerByte sel - 1)) s := by
  have hpos := groupsPerByte_pos sel
  simpa only [Nat.sub_add_cancel hpos] using iterate_nextEffect_loadByte (Nat.sub_one_lt_of_lt hpos) b s

theorem partway_all_xrem (sel : Scheme) (b : Byte) (last : Group) (s : State) :
    (partway sel b (groupsPerByte sel) last s).xrem = 0#3 := by
  rw [partway, Nat.sub_self]

/-- Once the sequence is used up, every XNEXT reports so and does nothing else. -/
theorem iterate_nextEffect_of_empty {s : State} (h : s.xrem = 0#3) (k : Nat) :
    nextEffect^[k + 1] s = { s with xempty := true } := by
  induction k with
  | zero => exact nextEffect_of_empty h
  | succ k ih =>
    rw [Function.iterate_succ_apply', ih]
    exact nextEffect_of_empty h

/-- Settles O25: the groups come in order; a number of XNEXT above `gpb(sel)` is the `gpb(sel)` that deliver them
all, and one or more past the last. -/
theorem xnextAfterXloadDeliversTheByteInOrder : Obligations.XnextAfterXloadDeliversTheByteInOrder := by
  intro sel b s hidle
  refine ⟨fun j hj => ?inOrder, fun m hm => ?exhausted⟩
  case inOrder =>
    rw [execAll_xload_xnext sel b _ hidle, iterate_nextEffect_loadByte hj]
    rfl
  case exhausted =>
    obtain ⟨k, rfl⟩ := Nat.exists_eq_add_of_lt hm
    rw [execAll_xload_xnext sel b _ hidle,
      show groupsPerByte sel + k + 1 = (k + 1) + groupsPerByte sel by omega, Function.iterate_add_apply,
      iterate_nextEffect_all, iterate_nextEffect_of_empty (partway_all_xrem sel b _ s), partway, Nat.sub_self]
    rfl

end Sys2Proof.Machine
end

section
/-! One BUILD (42_frame_packer.md R160 to R177): the state that it leaves, as a function of the payload bytes it has
received, and what follows for a single frame. -/

namespace Sys2Proof.Machine

/-! ### The slots of a frame -/

section slots
variable {c : Config} {sel : Scheme} {p : List Byte} {n : Nat}

theorem holdsFrame_fillSlots (m : Memory) (xs : List Symbol) : HoldsFrame (fillSlots m 0 xs) xs := fun k h => by
  simpa only [Nat.zero_add] using memRead_fillSlots m 0 xs h

theorem HoldsFrame.memRead_of_getElem? {m : Memory} {xs : List Symbol} {x : Symbol} (h : HoldsFrame m xs)
    (hn : xs[n]? = some x) : memRead m (4 * n) 4 = some (symbolWord x) := by
  obtain ⟨hlt, rfl⟩ := List.getElem?_eq_some_iff.mp hn
  exact h n hlt

/-- Every frame begins with the header's symbols, whatever its payload (R162). -/
theorem frameSymbols_getElem?_header (hn : n < headerGroups sel) :
    (frameSymbols c sel p)[n]? = (groups sel headerBytes)[n]?.map (romEntry c sel) := by
  have hlen : n < ((groups sel headerBytes).map (romEntry c sel)).length := by
    rwa [List.length_map, groups_length_eq, headerBytes_length, ← headerGroups_eq]
  rw [frameSymbols, groups_append, List.map_append, List.append_assoc, List.getElem?_append_left hlen,
    List.getElem?_map]

/-- The slots that no byte fills are those of the payload bytes still missing, whole bytes each (R176). -/
theorem padCount_eq (c : Config) (sel : Scheme) (m : Nat) :
    payCap c sel - groupsPerByte sel * m = groupsPerByte sel * (payBytes c sel - m) := by
  rw [Nat.mul_sub, payBytes_mul]

/-- Every frame ends with its pad symbols (R167). -/
theorem frameSymbols_getElem?_pad (hp : p.length ≤ payBytes c sel)
    (hfrom : c.cap - (payCap c sel - groupsPerByte sel * p.length) ≤ n) (hn : n < c.cap) :
    (frameSymbols c sel p)[n]? = some (padSymbol c sel) := by
  have hlen := frameSymbols_length hp
  rw [frameSymbols, List.length_append, List.length_replicate] at hlen
  rw [frameSymbols, List.getElem?_append_right (by omega), List.getElem?_replicate, if_pos (by omega)]

/-- A frame whose payload is full holds no pad symbol (R176). -/
theorem frameSymbols_of_full (hp : p.length = payBytes c sel) :
    frameSymbols c sel p = (groups sel (headerBytes ++ p)).map (romEntry c sel) := by
  rw [frameSymbols, padCount_eq, hp, Nat.sub_self, Nat.mul_zero, List.replicate_zero, List.append_nil]

/-- `CHUNK` is no operand of a frame's symbols (R173). -/
theorem frameSymbols_congr {c d : Config} (hcap : c.cap = d.cap) (hqpsk : c.qpskA = d.qpskA) (hqam : c.qamA = d.qamA)
    (ht16 : c.t16 = d.t16) : frameSymbols c = frameSymbols d := by
  obtain ⟨⟨cap, chunk, qpskA, qamA, t16⟩, ok⟩ := c
  obtain ⟨⟨_, _, _, _, _⟩, _⟩ := d
  simp only at hcap hqpsk hqam ht16
  subst hcap hqpsk hqam ht16
  rfl

theorem groups_headerBytes_getElem?_qpsk : ∀ n < 80, (groups .qpsk headerBytes)[n]? =
    some (if n < 76 then (if n % 2 = 0 then 0#4 else 3#4) else if n = 78 then 1#4 else 3#4) := by decide

theorem groups_headerBytes_getElem?_qam16 : ∀ n < 40, (groups .qam16 headerBytes)[n]? =
    some (if n < 38 then 3#4 else if n = 38 then 15#4 else 7#4) := by decide

/-- The last group of a byte is its low bits (R141). -/
theorem shiftMask_zero (sel : Scheme) (b : Byte) :
    shiftMask sel b 0 = (b &&& BitVec.ofNat 8 (2 ^ width sel - 1)).setWidth 4 := by
  rw [shiftMask, groupMask, Nat.zero_mul, BitVec.ushiftRight_zero]

end slots

/-! ### The state that BUILD leaves -/

section build
variable {s : State} {p : List Byte} {r : Source} {e : Bool}

/-- The state that BUILD leaves (R171) when `p` are the payload bytes it has received, `r` is the source after its
reads and `e` its `EXH`. -/
def built (p : List Byte) (r : Source) (e : Bool) (s : State) : State :=
  { s with
    exh := e
    done := true
    bytes := BitVec.ofNat 32 p.length
    wptr := BitVec.ofNat 32 s.cfg.cap
    xbyte := p.getLast?.getD 0xF7#8
    xw := s.scheme
    xrem := 0#3
    xempty := false
    bg := shiftMask s.scheme (p.getLast?.getD 0xF7#8) 0
    fb := fillSlots s.fb 0 (frameSymbols s.cfg s.scheme p)
    src := r
    owner := .sink }

theorem built_wptr_toNat (s : State) (p : List Byte) (r : Source) (e : Bool) :
    (built p r e s).wptr.toNat = s.cfg.cap := by
  have hcap := s.cfg.cap_le
  exact Nat.mod_eq_of_lt (by omega)

theorem built_bytes_toNat (hp : p.length ≤ payBytes s.cfg s.scheme) (r : Source) (e : Bool) :
    (built p r e s).bytes.toNat = p.length :=
  Nat.mod_eq_of_lt (lt_of_le_of_lt hp (payBytes_lt _ _))

theorem built_holdsFrame (s : State) (p : List Byte) (r : Source) (e : Bool) :
    HoldsFrame (built p r e s).fb (frameSymbols s.cfg s.scheme p) :=
  holdsFrame_fillSlots _ _

theorem built_keeps (s : State) (p : List Byte) (r : Source) (e : Bool) : BuildKeeps s (built p r e s) where
  cfg := rfl
  mode := rfl
  scheme := rfl
  symI := rfl
  symQ := rfl
  fault := rfl
  finfo := rfl
  inputs := rfl
  sinkData := rfl
  draws := rfl

/-- What a BUILD from `s` can receive, whatever the source returns: the next bytes `p` of the source and no others,
`r` being the source after them and `e` the `EXH` that results (R165 to R168). -/
structure Received (s : State) (p : List Byte) (r : Source) (e : Bool) : Prop where
  next : p = s.src.rest.take p.length
  inside : p.length ≤ s.src.rest.length
  atMost : p.length ≤ payBytes s.cfg s.scheme
  bytes : r.bytes = s.src.bytes
  cur : r.cur = s.src.cur + p.length
  exh : e = true ↔ p.length < payBytes s.cfg s.scheme ∨ r.cur = r.bytes.length
  contract : s.src.contract → r.contract ∧ (p.length < payBytes s.cfg s.scheme → p.length = s.src.rest.length)

theorem buildFrame_eq_built (s : State) : ∃ p r e, buildFrame s = built p r e s ∧ Received s p r e := by
  obtain ⟨p, r, short, he, hnext, hinside, hbytes, hcur, hatMost, hshort, hfull, hcontract⟩ := buildFrame_spec s
  have hiff : short = true ↔ p.length < payBytes s.cfg s.scheme := by
    cases short
    · simp [hfull rfl]
    · simp [hshort rfl]
  refine ⟨p, r, _, he, hnext, hinside, hatMost, hbytes, hcur, ?_, fun h => ?_⟩
  · rw [Bool.or_eq_true, hiff, srcEnd, beq_iff_eq]
  · rw [← hiff]
    exact hcontract h

theorem exec_build (h : ReadyToBuild s) : exec .build s = .next (buildFrame s) := by
  obtain ⟨hactive, hexh, -⟩ := h
  exact exec_build_of_ready hactive hexh

theorem exec_build_eq_built (h : ReadyToBuild s) :
    ∃ p r e, exec .build s = .next (built p r e s) ∧ Received s p r e := by
  rw [exec_build h]
  simpa only [Host.Outcome.next.injEq] using buildFrame_eq_built s

theorem Received.src_wf (h : Received s p r e) (hwf : s.src.wf) : r.wf := by
  have hinside := h.inside
  rw [Source.rest_length] at hinside
  rw [Source.wf, h.cur, h.bytes]
  simp only [Source.wf] at hwf
  omega

/-- The last byte received is the one before the cursor. -/
theorem Received.getLast? (h : Received s p r e) (hne : 1 ≤ p.length) : r.bytes[r.cur - 1]? = p.getLast? := by
  have hnext := h.next
  rw [h.bytes, h.cur, List.getLast?_eq_getElem?, hnext, List.length_take_of_le h.inside,
    List.getElem?_take_of_lt (by omega), Source.rest, List.getElem?_drop, Nat.add_sub_assoc hne]

/-! ### Under the source contract -/

theorem framePayload_length (s : State) :
    (framePayload s).length = min (payBytes s.cfg s.scheme) s.src.rest.length := List.length_take

theorem framePayload_length_le (s : State) : (framePayload s).length ≤ payBytes s.cfg s.scheme := by
  rw [framePayload_length]
  exact min_le_left _ _

/-- The source after a BUILD under the source contract. -/
def sourceAfterBuild (s : State) : Source := { s.src with cur := s.src.cur + (framePayload s).length }

/-- Under the source contract (R68) what a BUILD receives is fixed (R173): the payload of R173, and `EXH` says whether
it reaches the source's end. -/
theorem Received.of_contract (h : Received s p r e) (hc : s.src.contract) :
    p = framePayload s ∧ r = sourceAfterBuild s ∧
      e = decide (s.src.rest.length ≤ payBytes s.cfg s.scheme) := by
  obtain ⟨hrc, hshort⟩ := h.contract hc
  have hinside := h.inside
  have hatMost := h.atMost
  have hlen : p.length = min (payBytes s.cfg s.scheme) s.src.rest.length := by omega
  have hp : p = framePayload s := by
    rw [h.next, hlen, framePayload, ← List.take_eq_take_min]
  refine ⟨hp, ?source, ?exh⟩
  case source =>
    obtain ⟨rbytes, rcur, rlimits⟩ := r
    obtain rfl : rbytes = s.src.bytes := h.bytes
    obtain rfl : rcur = s.src.cur + p.length := h.cur
    rw [sourceAfterBuild, ← hp, show rlimits = s.src.limits from hrc.trans hc.symm]
  case exh =>
    have hpos := payBytes_pos s.cfg s.scheme
    have hrest := Source.rest_length s.src
    rw [Bool.eq_iff_iff, h.exh, decide_eq_true_iff, h.cur, h.bytes]
    omega

/-- BUILD as one function (R173). -/
theorem exec_build_of_contract (h : ReadyToBuild s) (hc : s.src.contract) :
    exec .build s = .next (built (framePayload s) (sourceAfterBuild s)
      (decide (s.src.rest.length ≤ payBytes s.cfg s.scheme)) s) := by
  obtain ⟨p, r, e, he, hrec⟩ := exec_build_eq_built h
  obtain ⟨rfl, rfl, rfl⟩ := hrec.of_contract hc
  exact he

/-! ### A first read cut short -/

@[simp] theorem emitGroups_src (n : Nat) (s : State) : (emitGroups n s).src = s.src := by
  induction n generalizing s with
  | zero => rfl
  | succ n ih => exact ih (emitGroup s)

@[simp] theorem emitBytes_src (bs : List Byte) (s : State) : (emitBytes bs s).src = s.src := by
  induction bs generalizing s with
  | nil => rfl
  | cons b bs ih => exact (ih (emitByte b s)).trans (emitGroups_src _ _)

@[simp] theorem burst_src (s : State) : (burst s).src = s.src.afterRead (burstSize s) := emitBytes_src _ _

@[simp] theorem pad_src (n : Nat) (s : State) : (pad n s).src = s.src := by
  induction n generalizing s with
  | zero => rfl
  | succ n ih => exact ih (putSymbol (padSymbol s.cfg s.scheme) s)

@[simp] theorem finishFrame_src (r : State × Bool) : (finishFrame r).src = r.1.src := by
  obtain ⟨s, short⟩ := r
  cases short
  · rfl
  · exact pad_src _ _

/-- A burst that is short is the last (R166). -/
theorem payload_of_burstShort {fuel : Nat} (hfuel : 0 < fuel) (hlt : s.wptr.toNat < s.cfg.cap)
    (hshort : burstShort s = true) : payload fuel s = (burst s, true) := by
  cases fuel with
  | zero => exact absurd hfuel (Nat.lt_irrefl 0)
  | succ fuel => rw [payload, if_pos hlt, if_pos hshort]

theorem emitHeader_wptr (s : State) :
    (emitHeader s).wptr.toNat + groupsPerByte s.scheme * payBytes s.cfg s.scheme = s.cfg.cap := by
  have hg := groupsPerByte_le s.scheme
  rw [emitHeader_eq, BitVec.toNat_ofNat, Nat.mod_eq_of_lt (by omega)]
  exact header_add_payBytes s.cfg s.scheme

/-- The first read asks for `min(CHUNK, PAYBYTES(s))` bytes (R165). -/
theorem burstSize_emitHeader (s : State) :
    burstSize (emitHeader s) = min s.cfg.chunk (payBytes s.cfg s.scheme) := by
  have hneed : need (emitHeader s) = payBytes s.cfg s.scheme :=
    need_eq (by simpa only [emitHeader_eq] using emitHeader_wptr s)
  rw [burstSize, hneed, emitHeader_eq]

/-- After a first read that comes back short, BUILD reads no more (R166). -/
theorem buildFrame_src_of_short
    (hshort : s.src.readCount (min s.cfg.chunk (payBytes s.cfg s.scheme)) <
      min s.cfg.chunk (payBytes s.cfg s.scheme)) :
    (buildFrame s).src = s.src.afterRead (min s.cfg.chunk (payBytes s.cfg s.scheme)) := by
  have hcfg : (emitHeader s).cfg = s.cfg := by rw [emitHeader_eq]
  have hsrc : (emitHeader s).src = s.src := by rw [emitHeader_eq]
  have hgpb := Nat.mul_pos (groupsPerByte_pos s.scheme) (payBytes_pos s.cfg s.scheme)
  have hwptr := emitHeader_wptr s
  rw [← burstSize_emitHeader] at hshort ⊢
  rw [buildFrame, payload_of_burstShort (by omega) (by rw [hcfg]; omega)
    (by rw [burstShort, hsrc]; exact decide_eq_true hshort), finishFrame_src, burst_src, hsrc]

end build

/-! ### The obligations on a single BUILD -/

/-- Settles O29: by the one function; `min` with what is left changes nothing in what is taken. -/
theorem buildIsTheBigStepFunction : Obligations.BuildIsTheBigStepFunction := by
  intro s hready hc rest p frame
  have hp : p = framePayload s := List.take_eq_take_min.symm
  have hframe : frame = frameSymbols s.cfg s.scheme (framePayload s) := hp ▸ rfl
  have hle := framePayload_length_le s
  rw [hframe, hp]
  exact ⟨_, exec_build_of_contract hready hc, frameSymbols_length hle, built_holdsFrame _ _ _ _,
    built_bytes_toNat hle _ _, rfl, decide_eq_true_iff, rfl, built_wptr_toNat _ _ _ _⟩

/-- Settles O30: `EXH` is clear exactly when the frame is full and the source is not at its end. -/
theorem buildCompletesWhateverTheSourceReturns : Obligations.BuildCompletesWhateverTheSourceReturns := by
  intro s hready
  have ⟨_, _, hwf⟩ := hready
  obtain ⟨p, r, e, he, hrec⟩ := exec_build_eq_built hready
  have hle := hrec.atMost
  have hclear (hmore : r.cur < r.bytes.length) (hfull : p.length = payBytes s.cfg s.scheme) : e = false := by
    rw [← Bool.not_eq_true, hrec.exh]
    omega
  exact ⟨_, p, he, hrec.next, hle, frameSymbols_length hle, built_holdsFrame _ _ _ _, built_bytes_toNat hle _ _,
    hrec.bytes, hrec.cur, fun h => hrec.exh.mpr (.inl h), hclear, fun h => hrec.exh.mpr (.inr h), rfl,
    built_wptr_toNat _ _ _ _, hrec.src_wf hwf⟩

/-- Settles O31: a byte that lies in none of the `CAP` slots lies past the last of them. -/
theorem buildLeavesTheRestUnchanged : Obligations.BuildLeavesTheRestUnchanged := by
  intro s hready
  obtain ⟨p, r, e, he, hrec⟩ := exec_build_eq_built hready
  refine ⟨_, he, built_keeps _ _ _ _, fun a ha => ?_⟩
  have hpast : 4 * s.cfg.cap ≤ a := by
    by_contra hlt
    have hslot := ha (a / 4) (by omega)
    simp only [slotAddr_eq] at hslot
    omega
  refine read_fillSlots_other _ _ _ (.inr ?_)
  rwa [frameSymbols_length hrec.atMost, Nat.zero_add]

/-- Settles O32: the registers are read off the state BUILD leaves, which is ACTIVE, so that XLOAD and XNEXT raise SEQ
and CLOSE is legal. -/
theorem extractorRegistersAfterBuild : Obligations.ExtractorRegistersAfterBuild := by
  intro s t hready ht
  obtain ⟨p, r, e, he, hrec⟩ := exec_build_eq_built hready
  cases he.symm.trans ht
  have hactive : (built p r e s).mode = .active := hready.1
  have hhalt : (built p r e s).mode ≠ .halt := by simp [hactive]
  rw [built_bytes_toNat hrec.atMost]
  refine ⟨rfl, rfl, rfl, fun hne => ?received, fun hnone => ?headerOnly, shiftMask_zero _ _, fun sel b => ?xload,
    ?xnext, ?close⟩
  case received =>
    obtain ⟨b, hb⟩ := Option.isSome_iff_exists.mp
      (List.getLast?_isSome.mpr (List.length_pos_iff.mp hne))
    simp only [built, hrec.getLast? hne, hb, Option.getD_some]
  case headerOnly =>
    obtain rfl := List.length_eq_zero_iff.mp hnone
    refine ⟨rfl, ?_⟩
    cases hs : s.scheme <;> simp only [built, hs] <;> rfl
  case xload => exact exec_of_illegal hhalt (by simp [legal, hactive])
  case xnext => exact exec_of_illegal hhalt (by simp [legal, hactive])
  case close => exact ⟨_, exec_of_legal hhalt (by simp [legal, hactive]), rfl, rfl, rfl, rfl, rfl⟩

/-- Settles O33: the header's groups slot by slot, each through the table. -/
theorem headerSlotsOfEveryFrame : Obligations.HeaderSlotsOfEveryFrame := by
  refine ⟨by decide, fun s hready => ?_⟩
  obtain ⟨p, r, e, he, hrec⟩ := exec_build_eq_built hready
  have hslot (n : Nat) (hn : n < headerGroups s.scheme) {x : Symbol}
      (hx : (groups s.scheme headerBytes)[n]?.map (romEntry s.cfg s.scheme) = some x) :
      memRead (built p r e s).fb (4 * n) 4 = some (symbolWord x) :=
    (built_holdsFrame s p r e).memRead_of_getElem? ((frameSymbols_getElem?_header hn).trans hx)
  refine ⟨_, he, fun hs n hn => hslot n (by rwa [hs]) ?qpsk, fun hs n hn => hslot n (by rwa [hs]) ?qam16⟩
  case qpsk =>
    rw [hs, groups_headerBytes_getElem?_qpsk n hn, Option.map_some, apply_ite (romEntry s.cfg .qpsk),
      apply_ite (romEntry s.cfg .qpsk), apply_ite (romEntry s.cfg .qpsk)]
    rfl
  case qam16 =>
    rw [hs, groups_headerBytes_getElem?_qam16 n hn]
    rfl

/-- Settles O34: the one function of R173 mentions no `CHUNK`. -/
theorem chunkCannotBeObserved : Obligations.ChunkCannotBeObserved := by
  intro s c hready hc hcap hqpsk hqam ht16
  have hpay : payBytes c s.scheme = payBytes s.cfg s.scheme := by rw [payBytes, payCap, hcap, payBytes, payCap]
  have hp : framePayload { s with cfg := c } = framePayload s := congrArg s.src.rest.take hpay
  refine ⟨_, exec_build_of_contract hready hc, ?_⟩
  rw [exec_build_of_contract (s := { s with cfg := c }) hready hc, sourceAfterBuild, hp]
  simp only [built, hpay, hcap, frameSymbols_congr hcap hqpsk hqam ht16]
  rfl

/-- Settles O35: the pad slots are those of the payload bytes that are missing. -/
theorem padSymbolsAreWholeBytes : Obligations.PadSymbolsAreWholeBytes := by
  intro s hready
  obtain ⟨p, r, e, he, hrec⟩ := exec_build_eq_built hready
  have hle := hrec.atMost
  have hpos := groupsPerByte_pos s.scheme
  refine ⟨_, he, ?_⟩
  intro pads
  have hpads : pads = groupsPerByte s.scheme * (payBytes s.cfg s.scheme - p.length) := by
    rw [← padCount_eq, ← built_bytes_toNat hle r e]
  rw [built_bytes_toNat hle]
  refine ⟨fun n hfrom hn => ?slots, Dvd.intro _ hpads.symm, ?full, fun hne => ?short⟩
  case slots =>
    rw [hpads, ← padCount_eq] at hfrom
    exact (built_holdsFrame s p r e).memRead_of_getElem? (frameSymbols_getElem?_pad hle hfrom hn)
  case full =>
    rw [hpads, Nat.mul_eq_zero]
    omega
  case short =>
    rw [hpads]
    exact Nat.le_mul_of_pos_right _ (by omega)

/-- Settles O36: the frame's payload is all that is left, and it is full. -/
theorem exactFillNeedsNoExtraFrame : Obligations.ExactFillNeedsNoExtraFrame := by
  intro s hready hc hlen
  have hp : framePayload s = s.src.rest := List.take_of_length_le hlen.le
  have hfull : (framePayload s).length = payBytes s.cfg s.scheme := hp ▸ hlen
  have hframe : frameSymbols s.cfg s.scheme (framePayload s) =
      (groups s.scheme (headerBytes ++ s.src.bytes.drop s.src.cur)).map (romEntry s.cfg s.scheme) :=
    (frameSymbols_of_full hfull).trans (hp ▸ rfl)
  rw [← hframe]
  exact ⟨_, exec_build_of_contract hready hc, frameSymbols_length hfull.le, built_holdsFrame _ _ _ _,
    (built_bytes_toNat hfull.le _ _).trans hfull, decide_eq_true hlen.le⟩

/-- Settles O37: the source is left one read on, which tells how many bytes the frame has received. -/
theorem shortReadEndsThePayload : Obligations.ShortReadEndsThePayload := by
  intro s l ls hready hlimits hl hrest
  have hcount : s.src.readCount (min s.cfg.chunk (payBytes s.cfg s.scheme)) = l := by
    rw [List.length_drop] at hrest
    simp only [Source.readCount, hlimits]
    omega
  have hsrc : (buildFrame s).src = { s.src with cur := s.src.cur + l, limits := ls } := by
    rw [buildFrame_src_of_short (by rw [hcount]; exact hl), Source.afterRead, hcount, hlimits, List.tail_cons]
  obtain ⟨p, r, e, he, hrec⟩ := buildFrame_eq_built s
  rw [he] at hsrc
  obtain rfl : r = _ := hsrc
  obtain rfl : l = p.length := Nat.add_left_cancel hrec.cur
  refine ⟨_, (exec_build hready).trans (congrArg _ he), ?_, built_bytes_toNat hrec.atMost _ _,
    hrec.exh.mpr (.inl (by omega)), rfl, rfl⟩
  rw [show (s.src.bytes.drop s.src.cur).take p.length = p from hrec.next.symm]
  exact built_holdsFrame _ _ _ _

end Sys2Proof.Machine
end

section
/-! A transmission frame by frame (42_frame_packer.md R174, R178): OPEN and then BUILD until `EXH = 1`, under the source
contract. -/

namespace Sys2Proof.Machine

/-- The state `t` stands in the transmission opened from `s` under `sel` after `k` full frames, the source not yet
exhausted. -/
structure Underway (s : State) (sel : Scheme) (k : Nat) (t : State) : Prop where
  active : t.mode = .active
  notExhausted : t.exh = false
  cfg : t.cfg = s.cfg
  scheme : t.scheme = sel
  fault : t.fault = s.fault
  src : t.src = { s.src with cur := s.src.cur + k * payBytes s.cfg sel }

section transmission
variable {s t : State} {sel : Scheme} {k : Nat}

theorem Underway.rest (h : Underway s sel k t) : t.src.rest = s.src.rest.drop (k * payBytes s.cfg sel) := by
  rw [h.src, Source.rest, Source.rest, List.drop_drop]

theorem Underway.nextPayload (h : Underway s sel k t) :
    framePayload t = (s.src.rest.drop (k * payBytes s.cfg sel)).take (payBytes s.cfg sel) := by
  rw [framePayload, h.rest, h.cfg, h.scheme]

/-- The source never goes past its end: frame `k` is the first, or there are bytes for it. -/
theorem Underway.ready (h : Underway s sel k t) (hwf : s.src.wf)
    (hk : k = 0 ∨ k * payBytes s.cfg sel < s.src.rest.length) : ReadyToBuild t := by
  refine ⟨h.active, h.notExhausted, ?_⟩
  rw [Source.rest_length] at hk
  rw [h.src]
  simp only [Source.wf] at hwf ⊢
  obtain rfl | hk := hk
  · simpa using hwf
  · omega

/-- Frame `k` of a transmission (R173, R178). -/
theorem Underway.exec_build (h : Underway s sel k t) (hwf : s.src.wf) (hc : s.src.contract)
    (hk : k = 0 ∨ k * payBytes s.cfg sel < s.src.rest.length) :
    exec .build t = .next (built (framePayload t) (sourceAfterBuild t)
      (decide (s.src.rest.length ≤ (k + 1) * payBytes s.cfg sel)) t) := by
  have htc : t.src.contract := by rw [h.src]; exact hc
  rw [exec_build_of_contract (h.ready hwf hk) htc, h.rest, List.length_drop, h.cfg, h.scheme, Nat.add_mul,
    Nat.one_mul]
  simp only [Nat.sub_le_iff_le_add']

theorem Underway.holdsFrame (h : Underway s sel k t) (r : Source) (e : Bool) :
    HoldsFrame (built (framePayload t) r e t).fb
      (frameSymbols s.cfg sel ((s.src.rest.drop (k * payBytes s.cfg sel)).take (payBytes s.cfg sel))) := by
  rw [← h.nextPayload, ← h.cfg, ← h.scheme]
  exact built_holdsFrame t (framePayload t) r e

theorem execAll_replicate_succ (i : Instr) (n : Nat) {j : Instr} {u : State}
    (h : execAll (j :: List.replicate n i) s = .next t) (hi : exec i t = .next u) :
    execAll (j :: List.replicate (n + 1) i) s = .next u := by
  rw [List.replicate_succ', ← List.cons_append, execAll_append h, execAll_cons hi]
  rfl

/-- OPEN and `k` BUILDs, while there is more in the source than their `k` full frames: induction on the frames. -/
theorem execAll_underway (hidle : s.mode = .idle) (hwf : s.src.wf) (hc : s.src.contract)
    (hk : k = 0 ∨ k * payBytes s.cfg sel < s.src.rest.length) :
    ∃ t, execAll (.openTx sel :: List.replicate k .build) s = .next t ∧ Underway s sel k t := by
  induction k with
  | zero =>
    have hopen : exec (.openTx sel) s = .next (openEffect sel s) :=
      exec_of_legal (by simp [hidle]) (by simp [legal, hidle])
    refine ⟨openEffect sel s, execAll_cons hopen [], rfl, rfl, rfl, rfl, rfl, ?_⟩
    rw [Nat.zero_mul]
    rfl
  | succ k ih =>
    have hmore : (k + 1) * payBytes s.cfg sel < s.src.rest.length := hk.resolve_left (Nat.succ_ne_zero k)
    have hle : k * payBytes s.cfg sel ≤ (k + 1) * payBytes s.cfg sel := Nat.mul_le_mul_right _ (Nat.le_succ k)
    have hk' : k = 0 ∨ k * payBytes s.cfg sel < s.src.rest.length := .inr (lt_of_le_of_lt hle hmore)
    obtain ⟨t, ht, hun⟩ := ih hk'
    refine ⟨_, execAll_replicate_succ _ _ ht (hun.exec_build hwf hc hk'), hun.active,
      decide_eq_false (Nat.not_le.mpr hmore), hun.cfg, hun.scheme, hun.fault, ?_⟩
    have hfull : (framePayload t).length = payBytes s.cfg sel := by
      rw [Nat.add_mul, Nat.one_mul] at hmore
      rw [hun.nextPayload, List.length_take, List.length_drop]
      omega
    change sourceAfterBuild t = _
    rw [sourceAfterBuild, hfull, hun.src, Nat.add_assoc, Nat.add_mul, Nat.one_mul]

end transmission

/-- Settles O39: frame `j` is built from the state that stands after `j` full frames. -/
theorem framesCarryConsecutiveBytes : Obligations.FramesCarryConsecutiveBytes := by
  intro s sel j hidle hwf hc hj
  obtain ⟨t, ht, hun⟩ := execAll_underway hidle hwf hc hj
  refine ⟨_, execAll_replicate_succ _ _ ht (hun.exec_build hwf hc hj), hun.holdsFrame _ _, rfl, fun u => ?_⟩
  rw [emitHeader_eq]

/-! ### The number of frames -/

theorem lt_ceilDiv_iff {n d k : Nat} (hd : 0 < d) : k < ceilDiv n d ↔ k * d < n := by
  rw [ceilDiv, Nat.lt_div_iff_mul_lt hd]
  omega

theorem ceilDiv_mul_mul {g d : Nat} (hg : 0 < g) (hd : 0 < d) (n : Nat) :
    ceilDiv (n * g) (g * d) = ceilDiv n d := by
  refine eq_of_forall_lt_iff fun k => ?_
  rw [lt_ceilDiv_iff (Nat.mul_pos hg hd), lt_ceilDiv_iff hd, Nat.mul_left_comm, Nat.mul_comm n,
    Nat.mul_lt_mul_left hg]

/-- Settles O38: frame `m` is built while `m · PAYBYTES(s) < L`, and it is the last one where
`L ≤ (m + 1) · PAYBYTES(s)`. -/
theorem frameCountIsTheCeiling : Obligations.FrameCountIsTheCeiling := by
  intro s sel hidle hwf hc L frames
  have hpos := payBytes_pos s.cfg sel
  have hlt (k : Nat) : k < frames ↔ k * payBytes s.cfg sel < L := lt_ceilDiv_iff hpos
  refine ⟨?ceil, fun hL => ?some, fun hL => ?none⟩
  case ceil =>
    rw [← payBytes_mul]
    exact (ceilDiv_mul_mul (groupsPerByte_pos sel) hpos L).symm
  case some =>
    have hframes : 1 ≤ frames := (hlt 0).mpr (by omega)
    refine ⟨hframes, fun k hk => ?before, ?last⟩
    case before =>
      obtain ⟨t, ht, hun⟩ := execAll_underway hidle hwf hc (.inr ((hlt k).mp hk))
      exact ⟨t, ht, hun.notExhausted, hun.active, hun.fault⟩
    case last =>
      obtain ⟨m, hm⟩ := Nat.exists_eq_add_of_le' hframes
      have hmore : m * payBytes s.cfg sel < L := (hlt m).mp (by omega)
      have hend : L ≤ (m + 1) * payBytes s.cfg sel := Nat.not_lt.mp (mt (hlt (m + 1)).mpr (by omega))
      obtain ⟨t, ht, hun⟩ := execAll_underway hidle hwf hc (.inr hmore)
      have hleft : (s.src.rest.drop (m * payBytes s.cfg sel)).length ≤ payBytes s.cfg sel := by
        rw [Nat.add_mul, Nat.one_mul] at hend
        rw [List.length_drop]
        exact Nat.sub_le_iff_le_add'.mpr hend
      have hframe := hun.holdsFrame (sourceAfterBuild t) true
      rw [List.take_of_length_le hleft] at hframe
      have hbuild := hun.exec_build hwf hc (.inr hmore)
      rw [decide_eq_true (show s.src.rest.length ≤ _ from hend)] at hbuild
      rw [hm, Nat.add_sub_cancel]
      exact ⟨_, execAll_replicate_succ _ _ ht hbuild, rfl, hun.active, hun.fault, hframe⟩
  case none =>
    have hnil : s.src.rest = [] := List.length_eq_zero_iff.mp hL
    obtain ⟨t, ht, hun⟩ := execAll_underway (sel := sel) (k := 0) hidle hwf hc (.inl rfl)
    have hpayload : framePayload t = [] := by rw [hun.nextPayload, hnil, List.drop_nil, List.take_nil]
    have hframe := hun.holdsFrame (sourceAfterBuild t)
      (decide (s.src.rest.length ≤ (0 + 1) * payBytes s.cfg sel))
    rw [hnil, List.drop_nil, List.take_nil] at hframe
    refine ⟨_, execAll_replicate_succ _ _ ht (hun.exec_build hwf hc (.inl rfl)), hframe, ?_, ?_⟩
    · rw [built_bytes_toNat (framePayload_length_le t), hpayload, List.length_nil]
    · exact decide_eq_true (by rw [hnil]; exact Nat.zero_le _)

end Sys2Proof.Machine
end

section
/-! Transmission control (43_session_control.md): which command is legal in which mode (R204), how `MODE` moves (R200),
and what OPEN, CLOSE and NOP do (R201 to R203). -/

namespace Sys2Proof.Machine

/-! ### NOP, OPEN and CLOSE where they are legal -/

section command
variable {s : State}

theorem exec_openTx (hidle : s.mode = .idle) (sel : Scheme) : exec (.openTx sel) s = .next (openEffect sel s) :=
  exec_of_legal (by simp [hidle]) (by simp [legal, hidle])

theorem exec_closeTx (hactive : s.mode = .active) : exec .closeTx s = .next (closeEffect s) :=
  exec_of_legal (by simp [hactive]) (by simp [legal, hactive])

end command

/-- Settles O40: OPEN is legal in IDLE, and its effect is these writes. -/
theorem openStartsATransmission : Obligations.OpenStartsATransmission := fun sel _ hidle => exec_openTx hidle sel

/-- Settles O41: CLOSE is legal in ACTIVE, and its effect is these writes. -/
theorem closeEndsTheTransmission : Obligations.CloseEndsTheTransmission := fun _ hactive => exec_closeTx hactive

/-- Settles O42: NOP has no effect to be ignored in HALT, and is legal in the other modes. -/
theorem nopChangesNothing : Obligations.NopChangesNothing := by
  intro s
  by_cases hm : s.mode = .halt
  · exact exec_of_halt hm .nop
  · exact exec_of_legal hm rfl

/-! ### The legality table -/

theorem Mode.ne_idle_iff {m : Mode} (h : m ≠ .halt) : m ≠ .idle ↔ m = .active := by
  cases m with
  | halt => exact absurd rfl h
  | _ => decide

theorem Mode.ne_active_iff {m : Mode} (h : m ≠ .halt) : m ≠ .active ↔ m = .idle := by
  cases m with
  | halt => exact absurd rfl h
  | _ => decide

theorem handBack_eq (i : Instr) (s : State) :
    handBack i s = if i = .build ∨ i = .closeTx then { s with owner := .block } else s := by
  cases i <;> rfl

/-- A legal command raises nothing, or it is a LOOKUP out of range (R221). -/
theorem effectOf_fault {i : Instr} {s : State} (h : s.mode ≠ .halt) :
    (effectOf i s).fault = s.fault ∨ (effectOf i s).fault = .badbg := by
  obtain ⟨hf, -⟩ | ⟨_, _, -, -, he⟩ := effectOf_cases (i := i) h
  · exact .inl hf
  · exact .inr (by rw [he, raiseFault_fault])

/-- Settles O44: the table's SEQ cases are those in which `legal` says no; then the three ways of `exec`. -/
theorem legalityByMode : Obligations.LegalityByMode := by
  intro i s seqCase handedBack
  have hback : handBack i s = handedBack := handBack_eq i s
  have hseq (hm : s.mode ≠ .halt) : seqCase ↔ legal i s.mode s.exh = false := by
    have hidle := Mode.ne_idle_iff hm
    have hactive := Mode.ne_active_iff hm
    cases i with
    | build => simp [seqCase, legal, ← hactive, or_iff_not_imp_left]
    | closeTx => simp [seqCase, legal, hactive]
    | _ => simp [seqCase, legal, hidle]
  refine ⟨fun hm => ?ignored, fun hm hno => ?refused, fun hm hyes => ?legal⟩
  case ignored => rw [exec_of_halt hm, hback]
  case refused =>
    rw [exec_of_illegal hm ((hseq hm).mp hno), hback]
    rfl
  case legal =>
    have hl : legal i s.mode s.exh = true := by simpa [hseq hm] using hyes
    exact ⟨_, exec_of_legal hm hl, effectOf_fault hm⟩

/-! ### How MODE moves -/

section mode
variable {s t : State} {c : CmdWord} {i : Instr}

/-- A fault entry (60_exceptions.md R224) on the word `c`, apart from whose the buffer is. -/
def FaultEntry (c : CmdWord) (s t : State) : Prop :=
  ∃ code, code ≠ .noFault ∧ t = { s with fault := code, finfo := c, mode := .halt, owner := t.owner }

theorem FaultEntry.mode (h : FaultEntry c s t) : t.mode = .halt := by
  obtain ⟨_, -, ht⟩ := h
  rw [ht]

/-- A command that enters HALT has raised SEQ, or BADBG. -/
theorem exec_faultEntry (h : s.mode ≠ .halt) (he : exec i s = .next t) (ht : t.mode = .halt) :
    FaultEntry (encode i) s t := by
  obtain ⟨hm, -⟩ | ⟨-, -, rfl⟩ | ⟨-, -, rfl⟩ := exec_cases he
  · exact absurd hm h
  · exact ⟨.seq, by decide, rfl⟩
  · obtain ⟨-, -, hno, -⟩ | ⟨_, _, -, -, hbad⟩ := effectOf_cases (i := i) h
    · exact absurd ht hno
    · exact ⟨.badbg, by decide, by rw [hbad]; rfl⟩

theorem issueCommand_faultEntry (h : s.mode ≠ .halt) (he : issueCommand c s = .next t) (ht : t.mode = .halt) :
    FaultEntry c s t := by
  obtain ⟨i, hdec, hi⟩ | ⟨_, -, ⟨hm, -⟩ | ⟨-, rfl⟩⟩ := issueCommand_cases he
  · exact encode_of_decode hdec ▸ exec_faultEntry h hi ht
  · exact absurd hm h
  · exact ⟨.illcmd, by decide, rfl⟩

theorem issueCommand_mode_of_halt (h : s.mode = .halt) (he : issueCommand c s = .next t) : t.mode = .halt := by
  obtain ⟨i, -, hi⟩ | ⟨_, -, ⟨-, rfl⟩ | ⟨hm, -⟩⟩ := issueCommand_cases he
  · rw [exec_of_halt h] at hi
    cases hi
    exact h
  · exact h
  · exact absurd h hm

/-- Of the commands only OPEN and CLOSE move `MODE` other than to HALT: `registersHaveOnlyTheirWriters`. -/
theorem exec_mode_ne (he : exec i s = .next t) (hne : t.mode ≠ s.mode) (hno : t.mode ≠ .halt) :
    (∃ sel, i = .openTx sel) ∨ i = .closeTx := by
  obtain ⟨hmode, -⟩ := registersHaveOnlyTheirWriters i s t he
  obtain hopen | hclose | hentry := hmode hne
  · exact .inl hopen
  · exact .inr hclose
  · exact absurd (by rw [hentry]) hno

/-- A word that moves `MODE` other than to HALT is a legal OPEN or CLOSE. -/
theorem issueCommand_mode_ne (he : issueCommand c s = .next t) (hne : t.mode ≠ s.mode) (hno : t.mode ≠ .halt) :
    (s.mode = .idle ∧ ∃ sel, decode c = .ok (.openTx sel)) ∨ (s.mode = .active ∧ decode c = .ok .closeTx) := by
  obtain ⟨i, hdec, hi⟩ | ⟨_, -, ⟨-, rfl⟩ | ⟨-, rfl⟩⟩ := issueCommand_cases he
  · obtain ⟨-, rfl⟩ | ⟨-, -, rfl⟩ | ⟨-, hl, -⟩ := exec_cases hi
    · exact absurd rfl hne
    · exact absurd rfl hno
    · obtain ⟨sel, rfl⟩ | rfl := exec_mode_ne hi hne hno
      · exact .inl ⟨by simpa [legal] using hl, sel, hdec⟩
      · exact .inr ⟨by simpa [legal] using hl, hdec⟩
  · exact absurd rfl hne
  · exact absurd rfl hno

theorem issueCommand_active_iff (hidle : s.mode = .idle) (he : issueCommand c s = .next t) :
    t.mode = .active ↔ ∃ sel, decode c = .ok (.openTx sel) := by
  refine ⟨fun ht => ?_, fun ⟨sel, hdec⟩ => ?_⟩
  · obtain ⟨-, hopen⟩ | ⟨hactive, -⟩ := issueCommand_mode_ne he (by simp [hidle, ht]) (by simp [ht])
    · exact hopen
    · simp [hidle] at hactive
  · rw [issueCommand_of_decode hdec, exec_openTx hidle] at he
    cases he
    rfl

theorem issueCommand_idle_iff (hactive : s.mode = .active) (he : issueCommand c s = .next t) :
    t.mode = .idle ↔ decode c = .ok .closeTx := by
  refine ⟨fun ht => ?_, fun hdec => ?_⟩
  · obtain ⟨hidle, -⟩ | ⟨-, hclose⟩ := issueCommand_mode_ne he (by simp [hactive, ht]) (by simp [ht])
    · simp [hactive] at hidle
    · exact hclose
  · rw [issueCommand_of_decode hdec, exec_closeTx hactive] at he
    cases he
    rfl

end mode

/-- Settles O45: a command word mode by mode, then each of the other inputs. -/
theorem modeMovesOnlyAsTheTableSays : Obligations.ModeMovesOnlyAsTheTableSays := by
  refine ⟨fun c s t he => ?command, fun s t he => ?reset, fun c s t he => ?resetDuring, fun src s t he => ?bind,
    fun a n s t he => ?read⟩
  case command =>
    exact ⟨fun hm => issueCommand_mode_of_halt hm he, fun hm => issueCommand_active_iff hm he,
      fun hm => issueCommand_idle_iff hm he, fun hm => ⟨issueCommand_faultEntry hm he, FaultEntry.mode⟩⟩
  case reset =>
    cases he
    rfl
  case resetDuring =>
    cases he
    rfl
  case bind =>
    obtain ⟨-, rfl⟩ := bindSource_cases he
    rfl
  case read =>
    obtain ⟨_, -, rfl⟩ | ⟨-, rfl⟩ := sinkRead_cases he
    · rfl
    · rfl

/-! ### A whole transmission -/

section transmission
variable {s t u : State} {sel : Scheme}

/-- Out of HALT no fault is recorded (10_state.md R29; 60_exceptions.md R220). -/
theorem Inv.no_fault (h : Inv s) (hm : s.mode ≠ .halt) : s.fault = .noFault ∧ s.finfo = 0#16 := by
  have hfault : s.fault = .noFault := by simpa [hm] using h.haltIffFault
  exact ⟨hfault, h.infoZero hfault⟩

theorem execAll_singleton (i : Instr) (s : State) : execAll [i] s = exec i s := by
  rw [execAll_cons (exec_eq i s), exec_eq]
  rfl

theorem exists_execAll (is : List Instr) (s : State) : ∃ t, execAll is s = .next t := by
  induction is generalizing s with
  | nil => exact ⟨s, rfl⟩
  | cons i is ih =>
    obtain ⟨t, ht⟩ := ih (whenLegal i s (effectOf i s))
    exact ⟨t, (execAll_cons (exec_eq i s) is).trans ht⟩

/-- What each of the commands keeps, their sequence keeps. -/
theorem execAll_keeps {P : State → Prop} {is : List Instr}
    (hkeeps : ∀ i ∈ is, ∀ u v, P u → exec i u = .next v → P v) (hs : P s) (h : execAll is s = .next t) : P t := by
  induction is generalizing s with
  | nil =>
    cases h
    exact hs
  | cons i is ih =>
    rw [execAll_cons (exec_eq i s)] at h
    exact ih (fun j hj => hkeeps j (List.mem_cons_of_mem i hj))
      (hkeeps i List.mem_cons_self _ _ hs (exec_eq i s)) h

/-- What OPEN from `s` under `sel`, and every BUILD after it, legal or not, leaves true of the state `t`: the
invariant, and the values of the registers that neither CLOSE clears nor the invariant fixes. -/
structure Opened (s : State) (sel : Scheme) (t : State) : Prop where
  inv : Inv t
  scheme : t.scheme = sel
  symI : t.symI = s.symI
  symQ : t.symQ = s.symQ

theorem Opened.of_openTx (h : Inv s) (hidle : s.mode = .idle) : Opened s sel (openEffect sel s) where
  inv := openEffect_inv h hidle sel
  scheme := rfl
  symI := rfl
  symQ := rfl

/-- BUILD is no writer of `SCHEME`, `SYM_I` and `SYM_Q` (10_state.md R20). -/
theorem Opened.build (h : Opened s sel t) (he : exec .build t = .next u) : Opened s sel u := by
  obtain ⟨-, hscheme, -, -, -, -, -, -, -, -, -, hsym, -⟩ := registersHaveOnlyTheirWriters _ _ _ he
  simp only [reduceCtorEq, exists_const, imp_false, not_or, not_not] at hscheme hsym
  obtain ⟨hsymI, hsymQ⟩ := hsym
  exact ⟨exec_inv h.inv he, hscheme.trans h.scheme, hsymI.trans h.symI, hsymQ.trans h.symQ⟩

/-- A CLOSE that does not leave the block in HALT was legal. -/
theorem eq_closeEffect_of_exec (he : exec .closeTx u = .next t) (hno : t.mode ≠ .halt) : t = closeEffect u := by
  obtain ⟨hm, rfl⟩ | ⟨-, -, rfl⟩ | ⟨-, -, rfl⟩ := exec_cases he
  · exact absurd hm hno
  · exact absurd rfl hno
  · rfl

/-- Everything but `SCHEME`, the symbol and the fault registers is cleared by CLOSE (R202). -/
theorem status_closeEffect (u : State) :
    status (closeEffect u) =
      { status State.reset with
        scheme := u.scheme.bit, symI := u.symI, symQ := u.symQ, fault := u.fault.code, finfo := u.finfo } := rfl

end transmission

/-- Settles O43: BUILD writes neither `SCHEME` nor the symbol, CLOSE clears the rest, and the invariant gives the fault
registers, since the last state is not in HALT. -/
theorem transmissionLeavesNoRegisterBehind : Obligations.TransmissionLeavesNoRegisterBehind := by
  intro s t sel k hinv hidle hall hno
  obtain ⟨u, hu⟩ := exists_execAll (List.replicate k .build) (openEffect sel s)
  have hopened : Opened s sel u := by
    refine execAll_keeps (fun i hi v w hv he => ?_) (.of_openTx hinv hidle) hu
    obtain rfl := List.eq_of_mem_replicate hi
    exact hv.build he
  rw [List.cons_append, execAll_cons (exec_openTx hidle sel), execAll_append hu, execAll_singleton] at hall
  obtain ⟨hfault, hfinfo⟩ := (exec_inv hopened.inv hall).no_fault hno
  obtain rfl := eq_closeEffect_of_exec hall hno
  rw [status_closeEffect, hopened.scheme, hopened.symI, hopened.symQ, show u.fault = .noFault from hfault,
    show u.finfo = 0#16 from hfinfo]
  rfl

end Sys2Proof.Machine
end

section
/-! The illegal command words (30_encoding.md R94): the list in terms of the fields, and the decoder's answer to it. -/

namespace Sys2Proof

/-- The words that R94 lists: a reserved `op`; `z != 0`; format N with `s = 1` or `imm8 != 0`; OPEN with
`imm8 != 0`. -/
def ListedIllegal (c : CmdWord) : Prop :=
  7 ≤ (opField c).toNat ∨ zField c ≠ 0#3 ∨
    (((opField c).toNat = 0 ∨ (opField c).toNat = 3 ∨ (opField c).toNat = 5 ∨ (opField c).toNat = 6) ∧
      (sField c ≠ 0#1 ∨ immField c ≠ 0#8)) ∨
    ((opField c).toNat = 4 ∧ immField c ≠ 0#8)

section formats
variable {c : CmdWord}

theorem exists_decodeN_iff {i : Instr} :
    (∃ j, decodeN c i = .ok j) ↔ sField c = 0#1 ∧ immField c = 0#8 := by
  unfold decodeN
  split
  · next hs => simp [hs]
  · next hs =>
    split
    · next himm => simp [himm]
    · next himm => simpa using ⟨not_not.mp hs, not_not.mp himm⟩

theorem exists_decodeS_iff {mk : Scheme → Instr} : (∃ j, decodeS c mk = .ok j) ↔ immField c = 0#8 := by
  unfold decodeS
  split
  · next himm => simp [himm]
  · next himm => simpa using himm

/-- A word decodes exactly when R94 does not list it: `z`, then row by row of R93's table, each in its format. -/
theorem exists_decode_iff : (∃ i, decode c = .ok i) ↔ ¬ ListedIllegal c := by
  unfold decode
  split
  · next hz => simp [ListedIllegal, hz]
  · next hne =>
    have hz := not_not.mp hne
    split
    case h_1 hop => simp [exists_decodeN_iff, ListedIllegal, hop, hz]
    case h_2 hop => simp [decodeSB, ListedIllegal, hop, hz]
    case h_3 hop => simp [decodeSB, ListedIllegal, hop, hz]
    case h_4 hop => simp [exists_decodeN_iff, ListedIllegal, hop, hz]
    case h_5 hop => simp [exists_decodeS_iff, ListedIllegal, hop, hz]
    case h_6 hop => simp [exists_decodeN_iff, ListedIllegal, hop, hz]
    case h_7 hop => simp [exists_decodeN_iff, ListedIllegal, hop, hz]
    case h_8 h0 h1 h2 h3 h4 h5 h6 =>
      simp only [imp_false] at h0 h1 h2 h3 h4 h5 h6
      have hop : 7 ≤ (opField c).toNat := by omega
      simp [ListedIllegal, hop]

end formats

end Sys2Proof
end

section
/-! Fault entry (60_exceptions.md R221 to R227): the order of the checks, what an entry writes, the way out of HALT. -/

namespace Sys2Proof.Machine

/-! ### The word issued -/

/-- The state once the host has issued the word `c` and the block has not acted on it: a BUILD or a CLOSE has ended the
sink's turn (20_memory.md R73). -/
def issued (c : CmdWord) (s : State) : State :=
  { s with owner := if decode c = .ok .build ∨ decode c = .ok .closeTx then .block else s.owner }

section checks
variable {c : CmdWord} {s t : State} {i : Instr}

theorem issued_of_decode (h : decode c = .ok i) (s : State) : issued c s = handBack i s := by
  rw [issued, h]
  cases i <;> rfl

theorem issued_of_error {e : Illegal} (h : decode c = .error e) (s : State) : issued c s = s := by
  rw [issued, h]
  rfl

/-! ### The checks in order -/

theorem issueCommand_of_error {e : Illegal} (h : decode c = .error e) (s : State) :
    issueCommand c s = .next (illegalCommand c s) := by
  rw [issueCommand, h]

/-- HALT comes first: the block acts on no word, legal or not (R226). -/
theorem issueCommand_of_halt (hm : s.mode = .halt) (c : CmdWord) : issueCommand c s = .next (issued c s) := by
  cases hdec : decode c with
  | ok i => rw [issueCommand_of_decode hdec, exec_of_halt hm, issued_of_decode hdec]
  | error e => rw [issueCommand_of_error hdec, illegalCommand, if_pos hm, issued_of_error hdec]

/-- Then ILLCMD (R222). -/
theorem issueCommand_illcmd (hm : s.mode ≠ .halt) {e : Illegal} (h : decode c = .error e) :
    issueCommand c s = .next (raiseFault .illcmd c s) := by
  rw [issueCommand_of_error h, illegalCommand, if_neg hm]

/-- Then SEQ (R223). -/
theorem issueCommand_seq (hm : s.mode ≠ .halt) (h : decode c = .ok i) (hl : legal i s.mode s.exh = false) :
    issueCommand c s = .next (raiseFault .seq c (issued c s)) := by
  rw [issueCommand_of_decode h, exec_of_illegal hm hl, encode_of_decode h, issued_of_decode h]

/-- Then BADBG, of LOOKUP alone (R221). -/
theorem exec_lookup_of_le (hm : s.mode ≠ .halt) {sel : Scheme} {bg : Byte} (hbg : tableSize sel ≤ bg.toNat) :
    exec (.lookup sel bg) s = .next (raiseFault .badbg (encode (.lookup sel bg)) s) := by
  rw [exec_of_legal hm rfl, effectOf, lookupEffect, (symbolAt_eq_none _ _ _).mpr hbg]

/-- A legal command that is no LOOKUP out of range raises nothing. -/
theorem exec_no_fault (hm : s.mode ≠ .halt) (hl : legal i s.mode s.exh = true)
    (hbg : ∀ sel bg, i = .lookup sel bg → bg.toNat < tableSize sel) :
    ∃ t, exec i s = .next t ∧ t.fault = s.fault ∧ t.finfo = s.finfo ∧ t.mode ≠ .halt := by
  refine ⟨_, exec_of_legal hm hl, ?_⟩
  obtain ⟨hfault, hfinfo, hmode, -⟩ | ⟨sel, bg, hi, hge, -⟩ := effectOf_cases (i := i) hm
  · exact ⟨hfault, hfinfo, hmode⟩
  · exact absurd (hbg sel bg hi) (Nat.not_lt.mpr hge)

/-- A word that enters HALT and moves the buffer is a BUILD or a CLOSE; a legal BUILD does not enter HALT. -/
theorem issueCommand_owner_ne (hm : s.mode ≠ .halt) (he : issueCommand c s = .next t) (ht : t.mode = .halt)
    (hne : t.owner ≠ s.owner) : t.owner = .block ∧ (decode c = .ok .build ∨ decode c = .ok .closeTx) := by
  have hword : c = encode .build ∨ c = encode .closeTx := by
    by_contra hno
    obtain ⟨hbuild, hclose⟩ := not_or.mp hno
    exact hne (issueCommand_owner he hbuild hclose)
  obtain rfl | rfl := hword
  · refine ⟨exec_build_owner he ?notLegal, .inl (decode_encode _)⟩
    rintro ⟨hactive, hexh⟩
    obtain ⟨u, hu, -, -, hno⟩ := exec_no_fault hm ((legal_build_iff _ _).mpr ⟨hactive, hexh⟩) (by simp)
    cases hu.symm.trans he
    exact hno ht
  · exact ⟨exec_closeTx_owner he, .inr (decode_encode _)⟩

/-- The word that records BADBG is a LOOKUP out of range (R221). -/
theorem issueCommand_badbg (he : issueCommand c s = .next t) (ht : t.fault = .badbg) (hs : s.fault ≠ .badbg) :
    ∃ sel bg, decode c = .ok (.lookup sel bg) ∧ tableSize sel ≤ bg.toNat := by
  obtain ⟨i, hdec, hi⟩ | ⟨_, -, ⟨-, rfl⟩ | ⟨-, rfl⟩⟩ := issueCommand_cases he
  · obtain ⟨-, rfl⟩ | ⟨-, -, rfl⟩ | ⟨hm, -, rfl⟩ := exec_cases hi
    · exact absurd ht hs
    · cases ht
    · obtain ⟨hfault, -⟩ | ⟨sel, bg, rfl, hge, -⟩ := effectOf_cases (i := i) hm
      · exact absurd (hfault.symm.trans ht) hs
      · exact ⟨sel, bg, hdec, hge⟩
  · exact absurd ht hs
  · cases ht

end checks

/-! ### The obligations -/

/-- Settles O6: the listed words are those that do not decode. -/
theorem illegalWordsRaiseIllcmd : Obligations.IllegalWordsRaiseIllcmd := by
  intro c s hm op z sBit imm listed
  have hlist : ListedIllegal c ↔ listed := by
    simp only [ListedIllegal, BitVec.toNat_ne]
    rfl
  have hdec : (∃ i, decode c = .ok i) ↔ ¬ listed := exists_decode_iff.trans (not_congr hlist)
  refine ⟨fun hlisted => ?_, hdec.mpr⟩
  cases h : decode c with
  | ok i => exact absurd hlisted (hdec.mp ⟨i, h⟩)
  | error e => exact issueCommand_illcmd hm h

/-- Settles O17: `T` gives nothing out of range, and no other check or effect records BADBG. -/
theorem badbgExactlyForLookupOutOfRange : Obligations.BadbgExactlyForLookupOutOfRange :=
  ⟨fun _ _ hm hbg => exec_lookup_of_le (sel := .qpsk) hm hbg,
    fun _ _ hm hbg => exec_lookup_of_le (sel := .qam16) hm hbg,
    fun _ _ _ he ht hs => issueCommand_badbg he ht hs,
    fun c g => ⟨(symbolAt_eq_none c .qpsk g).mpr, (symbolAt_eq_none c .qam16 g).mpr⟩⟩

/-- Settles O46: the entry of `issueCommand_faultEntry`, and the words that move the buffer. -/
theorem faultEntryWritesThreeRegisters : Obligations.FaultEntryWritesThreeRegisters := by
  intro c s t hm he ht
  obtain ⟨code, hcode, hentry⟩ := issueCommand_faultEntry hm he ht
  have hfault : t.fault = code := by rw [hentry]
  exact ⟨hfault ▸ hentry, hfault ▸ hcode, issueCommand_owner_ne hm he ht⟩

/-- Settles O47: check by check. -/
theorem faultPriority : Obligations.FaultPriority := by
  intro c s o
  refine ⟨fun hm => issueCommand_of_halt hm c, fun hm _ => issueCommand_illcmd hm, fun hm _ => issueCommand_seq hm,
    fun hm i hdec hl => ⟨?badbg, ?passed⟩⟩
  case badbg =>
    rintro sel bg rfl hge
    rw [issueCommand_of_decode hdec, exec_lookup_of_le hm hge, encode_of_decode hdec]
    rfl
  case passed =>
    rw [issueCommand_of_decode hdec]
    exact exec_no_fault hm hl

/-- Settles O48: HALT is the first check, and of the other inputs only the reset writes `MODE`. -/
theorem onlyResetLeavesHalt : Obligations.OnlyResetLeavesHalt := by
  refine ⟨fun s c later hm hin => ?ignored, fun s t hm hstep hno => ?leaves⟩
  case ignored =>
    rw [step_of_inputs_cons hin]
    exact issueCommand_of_halt (s := withInputs later s) hm c
  case leaves =>
    obtain ⟨hcommand, -, -, hbind, hread⟩ := modeMovesOnlyAsTheTableSays
    obtain ⟨-, rfl⟩ | ⟨x, later, hin, he⟩ := step_cases hstep
    · exact absurd hm hno
    · cases x with
      | command c =>
        obtain ⟨hstays, -⟩ := hcommand c _ t he
        exact absurd (hstays hm) hno
      | reset => exact ⟨later, .inl hin⟩
      | resetDuring c => exact ⟨later, .inr ⟨c, hin⟩⟩
      | bindSource src => exact absurd ((hbind src _ t he).trans hm) hno
      | sinkRead addr n => exact absurd ((hread addr n _ t he).trans hm) hno

end Sys2Proof.Machine
end

section
/-! Reset (70_reset_and_hazards.md R251, R252; 93_implementation_defined.md U8) and the completion of every command
(R260). -/

namespace Sys2Proof.Machine

/-! ### Reset -/

/-- Every output is a register that the reset has set to 0, whatever the state before (R251). -/
theorem status_resetBlock (s : State) : status (resetBlock s) = status State.reset := rfl

/-- The source when a reset falls inside a command (R252): untouched, or left by an abandoned legal BUILD. -/
theorem sourceAtReset_cases (c : CmdWord) (s : State) :
    sourceAtReset c s = s.src ∨
    ((decode c = .ok .build ∧ s.mode = .active ∧ s.exh = false) ∧
      sourceAtReset c s = abandonedSource (Config.freeAdvance s.draws) (Config.freeReads s.draws) s) := by
  unfold sourceAtReset
  split
  · next hdec =>
    split
    · next hl => exact .inr ⟨⟨hdec, (legal_build_iff _ _).mp hl⟩, rfl⟩
    · exact .inl rfl
  · exact .inl rfl

/-- Where that source stands: the same bytes, the cursor at a position that U8 allows. -/
theorem sourceAtReset_spec (c : CmdWord) (s : State) :
    (sourceAtReset c s).bytes = s.src.bytes ∧
    ∃ n, (sourceAtReset c s).cur = s.src.cur + n ∧
      n ≤ payBytes s.cfg s.scheme ∧ n ≤ s.src.rest.length := by
  obtain hkept | ⟨-, hmoved⟩ := sourceAtReset_cases c s
  · rw [hkept]
    exact ⟨rfl, 0, rfl, Nat.zero_le _, Nat.zero_le _⟩
  · rw [hmoved]
    exact abandonedSource_spec _ _ s

/-! ### Completion -/

/-- A word that decodes is executed and one that does not raises ILLCMD or is ignored: every word has a next state (R260). -/
theorem issueCommand_next (c : CmdWord) (s : State) : ∃ t, issueCommand c s = .next t := by
  cases hdec : decode c with
  | ok i => exact ⟨_, (issueCommand_of_decode hdec s).trans (exec_eq i s)⟩
  | error e => exact ⟨_, issueCommand_of_error hdec s⟩

/-! ### The obligations -/

/-- Settles O50: the source by `sourceAtReset_cases` and `sourceAtReset_spec`, the registers by `status_resetBlock`. -/
theorem resetDuringBuildLeavesAPrefixOfTheReads : Obligations.ResetDuringBuildLeavesAPrefixOfTheReads := by
  intro s c hwf
  obtain ⟨hbytes, hcursor⟩ := sourceAtReset_spec c s
  have hother : ¬ (decode c = .ok .build ∧ s.mode = .active ∧ s.exh = false) → sourceAtReset c s = s.src :=
    fun hno => (sourceAtReset_cases c s).resolve_right fun ⟨hbuild, _⟩ => hno hbuild
  exact ⟨resetDuring c s, rfl, status_resetBlock _, rfl, hbytes, sourceAtReset_wf hwf c, hother, hcursor, rfl⟩

/-- Settles O49: the step is the block's reset, after the host has taken the buffer back. -/
theorem resetClearsEveryRegister : Obligations.ResetClearsEveryRegister := by
  intro s later hin
  exact ⟨resetBlock (takeBack (withInputs later s)), step_of_inputs_cons hin, status_resetBlock _, rfl, rfl, rfl, rfl,
    Memory.read_nil⟩

/-- Settles O56: by `issueCommand_next`. -/
theorem everyCommandCompletes : Obligations.EveryCommandCompletes :=
  issueCommand_next

end Sys2Proof.Machine
end
